-- ==== Sys2Proof/Word.lean ====
section
/-! DEFINITION. The value types of the DotStar core: bytes, half words, packed words, colours. -/

namespace Sys2Proof

/-- An 8-bit channel value, table index, mantissa or transport byte (R8). -/
abbrev Byte := BitVec 8

/-- A 16-bit value: a gamma-expanded channel, a hue, a pixel count, a pixel index (R8). -/
abbrev Half := BitVec 16

/-- A 32-bit packed colour (R61). -/
abbrev Packed := BitVec 32

/-- A 64-bit command or response word (R67, R69). -/
abbrev Word := BitVec 64

/-- Three 8-bit channel values: red, green, blue (R14 "pixel"). -/
structure Rgb where
  r : Byte
  g : Byte
  b : Byte
  deriving DecidableEq, Repr

/-- Three 16-bit gamma-expanded channel values (R97, R112). -/
structure Rgb16 where
  r : Half
  g : Half
  b : Half
  deriving DecidableEq, Repr

/-- The HD tuple: three mantissa bytes and the shared 5-bit power level (R63, R117). -/
structure Hd where
  r     : Byte
  g     : Byte
  b     : Byte
  power : BitVec 5
  deriving DecidableEq, Repr

/-- The three colours of a pixel (R41). -/
inductive Channel where
  | red
  | green
  | blue
  deriving DecidableEq, Repr

end Sys2Proof
end

