-- ==== Sys2Proof/Config.lean ====
section
/-! DEFINITION. The configuration of one instance of the block (R7), held as plain data, and the open values. -/

namespace Sys2Proof

/-- The six legal values of `ORDER`, named by the colours in buffer positions 0, 1, 2 (R42). -/
inductive Order where
  | rgb
  | rbg
  | grb
  | gbr
  | brg
  | bgr
  deriving DecidableEq, Repr

/-- The configuration of one instance, fixed at construction (R7); no operation writes it (R23).

A parameter that is a function is held as the list of the points a configuration GIVES (argument, value); at an argument
no point gives, the parameter has its default where the spec states one (`EXPAND` R97, `QUANT` R111, `END_BYTES` R160,
`HD_HEADER` R157) and is open where it states none (`GAMMA8`, `GAMMA16`, `SINE8`). Every domain is finite, so every
total function is some list of points. DESIGN CHOICE, notes/assumptions/1.md. -/
structure Config where
  /-- `ORDER` (R7, R42). -/
  order    : Order
  /-- `HD` (R7, R159). -/
  hd       : Bool
  /-- `N0`, the pixel count asked at construction (R7). -/
  n0       : Half
  /-- Given entries of the table `GAMMA8` (R90). -/
  gamma8   : List (Byte × Byte)
  /-- Given entries of the table `GAMMA16` (R92). -/
  gamma16  : List (Byte × Half)
  /-- Given entries of the table `SINE8` (R185). -/
  sine8    : List (Byte × Byte)
  /-- Given values of a replacement `EXPAND` (R98). -/
  expand   : List (Rgb × Rgb16)
  /-- Given values of a replacement `QUANT` (R124). -/
  quant    : List (Rgb × Hd)
  /-- Given values of another `END_BYTES` (R160, D14). -/
  endBytes : List (Half × Nat)
  /-- Given values of another `HD_HEADER` (R157, D10). -/
  hdHeader : List (BitVec 5 × Byte)
  deriving DecidableEq, Repr

/-- FREE VALUE: the entries of `GAMMA8` that no configuration gives (R90; D6 OPEN). notes/assumptions/2.md -/
opaque Config.gamma8Open : Byte → Byte

/-- FREE VALUE: the entries of `GAMMA16` that no configuration gives (R92; D6 OPEN). notes/assumptions/2.md -/
opaque Config.gamma16Open : Byte → Half

/-- FREE VALUE: the entries of `SINE8` that no configuration gives (R185; D7 OPEN). notes/assumptions/2.md -/
opaque Config.sine8Open : Byte → Byte

/-- FREE VALUE: the `k`-th draw of `alloc_ok`, where the state's queue of draws names none (R131, R219; U2).
notes/assumptions/3.md -/
opaque Config.allocOpen : Nat → Bool

/-- The configuration of the one instance `State.reset` constructs: that of the spec's own test program P1
(95_test_vectors.md), `ORDER = GRB`, `HD = 0`, `N0 = 2`, every function at its default and every table open.
DESIGN CHOICE (D30 leaves it open), notes/assumptions/4.md. -/
def Config.reference : Config :=
  { order := .grb, hd := false, n0 := 2#16, gamma8 := [], gamma16 := [], sine8 := [], expand := [], quant := [],
    endBytes := [], hdHeader := [] }

end Sys2Proof
end

