-- ==== Sys2Proof/Syntax.lean ====
section
/-! DEFINITION. The operations: one constructor per row of spec/opcode_table.json; and the assembler's lines (R73, R74). -/

namespace Sys2Proof

/-- The fourteen operations of R70, each with the operands R68 assembles for it. -/
inductive Instr where
  /-- GAMMA8 x (R94). -/
  | gamma8 (x : Byte)
  /-- GAMMA16 x (R95). -/
  | gamma16 (x : Byte)
  /-- GAMMA32 c32 (R96). -/
  | gamma32 (c : Packed)
  /-- EXPAND rgb (R97). -/
  | expand (c : Rgb)
  /-- SINE8 x (R185). -/
  | sine8 (x : Byte)
  /-- HSV hue, sat, val (R184). -/
  | hsv (hue : Half) (sat val : Byte)
  /-- HDQ rgb (R123). -/
  | hdq (c : Rgb)
  /-- SETLEN n (R131). -/
  | setlen (n : Half)
  /-- SETPIX i, rgb (R132). -/
  | setpix (i : Half) (c : Rgb)
  /-- GETPIX i (R133). -/
  | getpix (i : Half)
  /-- FILL rgb (R134). -/
  | fill (c : Rgb)
  /-- SETBRT b (R137). -/
  | setbrt (l : Byte)
  /-- GETBRT (R138). -/
  | getbrt
  /-- SHOW (R152). -/
  | showFrame
  deriving DecidableEq, Repr

/-- Why a command word is `INVALID` (R71). -/
inductive Invalid where
  /-- `op` is none of the fourteen opcodes of R70. -/
  | reservedOpcode (op : Byte)
  /-- `rsv` is not zero, whatever `op` is. -/
  | rsvNotZero (rsv : Byte)
  deriving DecidableEq, Repr

/-- One line of the assembler syntax with its operands as the numbers written (R73), and the pseudo-operations (R74).
A colour `rgb` is one number `0xRRGGBB`. -/
inductive Line where
  | gamma8 (x : Nat)
  | gamma16 (x : Nat)
  | gamma32 (c32 : Nat)
  | expand (rgb : Nat)
  | sine8 (x : Nat)
  | hsv (hue sat val : Nat)
  | hdq (rgb : Nat)
  | setlen (n : Nat)
  | setpix (i rgb : Nat)
  | getpix (i : Nat)
  | fill (rgb : Nat)
  | setbrt (b : Nat)
  | getbrt
  | showFrame
  /-- `CLEAR` (R74). -/
  | clear
  /-- `HSV hue` (R74). -/
  | hsvHue (hue : Nat)
  /-- `HSV hue, sat` (R74). -/
  | hsvHueSat (hue sat : Nat)
  /-- `SETPIX i, r, g, b` (R74). -/
  | setpixBytes (i r g b : Nat)
  deriving DecidableEq, Repr

end Sys2Proof
end

