-- ==== Sys2Proof/WellFormed.lean ====
section
/-! DEFINITION. What is legal: a channel order, an assembler line. Every term of `Instr` is well
formed by its operand types (R68: each operand is a field read as an unsigned integer, every value legal). -/

namespace Sys2Proof

/-- The channel order with the offsets `(rOff, gOff, bOff)`; none for a triple that is not a permutation of {0,1,2}, the
"mono" case among them (R42, U4). -/
def Order.ofOffsets (rOff gOff bOff : Nat) : Option Order :=
  match rOff, gOff, bOff with
  | 0, 1, 2 => some .rgb
  | 0, 2, 1 => some .rbg
  | 1, 0, 2 => some .grb
  | 2, 0, 1 => some .gbr
  | 1, 2, 0 => some .brg
  | 2, 1, 0 => some .bgr
  | _, _, _ => none

/-- Every number of a line fits the field it is written to (R73, with the operand widths of R68 and R74). -/
def Line.wellFormed : Line → Bool
  | .gamma8 x => decide (x < 2 ^ 8)
  | .gamma16 x => decide (x < 2 ^ 8)
  | .gamma32 c32 => decide (c32 < 2 ^ 32)
  | .expand rgb => decide (rgb < 2 ^ 24)
  | .sine8 x => decide (x < 2 ^ 8)
  | .hsv hue sat val => decide (hue < 2 ^ 16) && decide (sat < 2 ^ 8) && decide (val < 2 ^ 8)
  | .hdq rgb => decide (rgb < 2 ^ 24)
  | .setlen n => decide (n < 2 ^ 16)
  | .setpix i rgb => decide (i < 2 ^ 16) && decide (rgb < 2 ^ 24)
  | .getpix i => decide (i < 2 ^ 16)
  | .fill rgb => decide (rgb < 2 ^ 24)
  | .setbrt b => decide (b < 2 ^ 8)
  | .getbrt => true
  | .showFrame => true
  | .clear => true
  | .hsvHue hue => decide (hue < 2 ^ 16)
  | .hsvHueSat hue sat => decide (hue < 2 ^ 16) && decide (sat < 2 ^ 8)
  | .setpixBytes i r g b => decide (i < 2 ^ 16) && decide (r < 2 ^ 8) && decide (g < 2 ^ 8) && decide (b < 2 ^ 8)

end Sys2Proof
end

