-- ==== Sys2Proof/Decode.lean ====
section
/-! DEFINITION. Command words (R67 to R72): the decoder, total on all 2^64 words; the encoder; the assembler (R73, R74). -/

namespace Sys2Proof

/-- `op`, bits 63:56 (R67). -/
def opField (w : Word) : Byte := w.extractLsb' 56 8

/-- `rsv`, bits 55:48 (R67). -/
def rsvField (w : Word) : Byte := w.extractLsb' 48 8

/-- `a`, bits 47:32 (R67). -/
def aField (w : Word) : Half := w.extractLsb' 32 16

/-- `d`, bits 31:0 (R67); also `d.c32` (R68). -/
def dField (w : Word) : Packed := w.extractLsb' 0 32

/-- `d.x = d[7:0]` (R68). -/
def dByte (w : Word) : Byte := (dField w).extractLsb' 0 8

/-- `d[15:8]` (R68). -/
def dHighByte (w : Word) : Byte := (dField w).extractLsb' 8 8

/-- `d.rgb = d[23:0]`: red `d[23:16]`, green `d[15:8]`, blue `d[7:0]`; `d[31:24]` is ignored (R68). -/
def dRgb (w : Word) : Rgb :=
  { r := (dField w).extractLsb' 16 8, g := (dField w).extractLsb' 8 8, b := (dField w).extractLsb' 0 8 }

/-- The decoder: one operation of R70, or why the word is `INVALID` (R71). Bits of `a` and `d` that the operation does
not name are ignored (R68). -/
def decode (w : Word) : Except Invalid Instr :=
  if rsvField w ≠ 0#8 then .error (.rsvNotZero (rsvField w))
  else
    match (opField w).toNat with
    | 0x01 => .ok (.gamma8 (dByte w))
    | 0x02 => .ok (.gamma16 (dByte w))
    | 0x03 => .ok (.gamma32 (dField w))
    | 0x04 => .ok (.expand (dRgb w))
    | 0x05 => .ok (.sine8 (dByte w))
    | 0x06 => .ok (.hsv (aField w) (dHighByte w) (dByte w))
    | 0x08 => .ok (.hdq (dRgb w))
    | 0x10 => .ok (.setlen (aField w))
    | 0x11 => .ok (.setpix (aField w) (dRgb w))
    | 0x12 => .ok (.getpix (aField w))
    | 0x13 => .ok (.fill (dRgb w))
    | 0x14 => .ok (.setbrt (dByte w))
    | 0x15 => .ok .getbrt
    | 0x20 => .ok .showFrame
    | _ => .error (.reservedOpcode (opField w))

/-- The opcode of an operation (R70). -/
def opcodeOf : Instr → Byte
  | .gamma8 _ => 0x01#8
  | .gamma16 _ => 0x02#8
  | .gamma32 _ => 0x03#8
  | .expand _ => 0x04#8
  | .sine8 _ => 0x05#8
  | .hsv _ _ _ => 0x06#8
  | .hdq _ => 0x08#8
  | .setlen _ => 0x10#8
  | .setpix _ _ => 0x11#8
  | .getpix _ => 0x12#8
  | .fill _ => 0x13#8
  | .setbrt _ => 0x14#8
  | .getbrt => 0x15#8
  | .showFrame => 0x20#8

/-- The command word with the four fields of R67. -/
def commandWord (op rsv : Byte) (a : Half) (d : Packed) : Word := op ++ rsv ++ a ++ d

/-- `d` holding a colour in its low 24 bits, the top byte 0 (R68, R73). -/
def rgbOperand (c : Rgb) : Packed := 0#8 ++ c.r ++ c.g ++ c.b

/-- `d` holding one byte operand, the rest 0 (R68, R73). -/
def byteOperand (x : Byte) : Packed := 0#24 ++ x

/-- `d` holding saturation and value, the rest 0 (R68, R73). -/
def satValOperand (sat val : Byte) : Packed := 0#16 ++ sat ++ val

/-- The operand `a` of an operation, 0 where it names none (R68, R73). -/
def aOperand : Instr → Half
  | .hsv hue _ _ => hue
  | .setlen n => n
  | .setpix i _ => i
  | .getpix i => i
  | .gamma8 _ | .gamma16 _ | .gamma32 _ | .expand _ | .sine8 _ | .hdq _ | .fill _ | .setbrt _ | .getbrt | .showFrame => 0#16

/-- The operand `d` of an operation, every bit it does not name 0 (R68, R73). -/
def dOperand : Instr → Packed
  | .gamma8 x | .gamma16 x | .sine8 x | .setbrt x => byteOperand x
  | .gamma32 c => c
  | .expand c | .hdq c | .setpix _ c | .fill c => rgbOperand c
  | .hsv _ sat val => satValOperand sat val
  | .setlen _ | .getpix _ | .getbrt | .showFrame => 0#32

/-- The encoder: the word with the named fields set and every other bit 0 (R73). -/
def encode (i : Instr) : Word := commandWord (opcodeOf i) 0#8 (aOperand i) (dOperand i)

/-- The bits of `a` and `d` an operation names (R68); every other bit of `a` and `d` is ignored. -/
def namedBits : Instr → Word
  | .gamma8 _ | .gamma16 _ | .sine8 _ | .setbrt _ => 0x00000000000000FF#64
  | .gamma32 _ => 0x00000000FFFFFFFF#64
  | .expand _ | .hdq _ | .fill _ => 0x0000000000FFFFFF#64
  | .hsv _ _ _ => 0x0000FFFF0000FFFF#64
  | .setlen _ | .getpix _ => 0x0000FFFF00000000#64
  | .setpix _ _ => 0x0000FFFF00FFFFFF#64
  | .getbrt | .showFrame => 0x0000000000000000#64

/-- The colour a 24-bit number `0xRRGGBB` stands for (R73). -/
def rgbOfNat (n : Nat) : Rgb :=
  { r := BitVec.ofNat 8 (n >>> 16), g := BitVec.ofNat 8 (n >>> 8), b := BitVec.ofNat 8 n }

/-- What a line stands for, its numbers cut to their fields; the pseudo-operations expanded (R73, R74). -/
def lineInstr : Line → Instr
  | .gamma8 x => .gamma8 (BitVec.ofNat 8 x)
  | .gamma16 x => .gamma16 (BitVec.ofNat 8 x)
  | .gamma32 c32 => .gamma32 (BitVec.ofNat 32 c32)
  | .expand rgb => .expand (rgbOfNat rgb)
  | .sine8 x => .sine8 (BitVec.ofNat 8 x)
  | .hsv hue sat val => .hsv (BitVec.ofNat 16 hue) (BitVec.ofNat 8 sat) (BitVec.ofNat 8 val)
  | .hdq rgb => .hdq (rgbOfNat rgb)
  | .setlen n => .setlen (BitVec.ofNat 16 n)
  | .setpix i rgb => .setpix (BitVec.ofNat 16 i) (rgbOfNat rgb)
  | .getpix i => .getpix (BitVec.ofNat 16 i)
  | .fill rgb => .fill (rgbOfNat rgb)
  | .setbrt b => .setbrt (BitVec.ofNat 8 b)
  | .getbrt => .getbrt
  | .showFrame => .showFrame
  | .clear => .fill (rgbOfNat 0)
  | .hsvHue hue => .hsv (BitVec.ofNat 16 hue) 255#8 255#8
  | .hsvHueSat hue sat => .hsv (BitVec.ofNat 16 hue) (BitVec.ofNat 8 sat) 255#8
  | .setpixBytes i r g b => .setpix (BitVec.ofNat 16 i) (rgbOfNat ((r <<< 16) ||| (g <<< 8) ||| b))

/-- The assembler: a well-formed line's operation, nothing for a line whose number does not fit its field (R73). -/
def assemble (l : Line) : Option Instr := if l.wellFormed then some (lineInstr l) else none

/-- The 64-bit word whose low `nbits` bits are those of `w`, every bit above them 0. -/
def tableWord (nbits w : Nat) : Word := BitVec.ofNat 64 (w % 2 ^ nbits)

/-- What the decoder reads from a word of the opcode table (one 64-bit word, so the table's bit numbers are the word's). -/
def decodeTableWord (nbits w : Nat) : Option Instr :=
  match decode (tableWord nbits w) with
  | .ok i => some i
  | .error _ => none

end Sys2Proof
end

