-- ==== Sys2Proof/Machine/State.lean ====
section
/-! DEFINITION. The state of one instance, the reasons a step can stop, and the state after reset. -/

namespace Sys2Proof.Machine

/-- The pixel buffer as (address, byte) pairs: addresses strictly rising, no entry `0x00`; an address that is not listed
reads `0x00` (R131, R31: a buffer is allocated zeroed). -/
abbrev Memory := List Host.Cell

/-- What an address of the buffer that is not listed reads as (R131 "each 0x00"). -/
def Memory.unlisted : Byte := 0x00#8

/-- The canonical form: addresses strictly rising, no entry equal to what an unlisted address reads as. -/
abbrev Memory.wf (m : Memory) : Prop :=
  m.Pairwise (fun c e => c.1 < e.1) ∧ ∀ c ∈ m, c.2 ≠ Memory.unlisted

/-- The frame encoder's position `SEQ = (phase, i, k)` (R28, R165): `start k` is `(START, 0, k)`, `pixel i k` is
`(PIXEL, i, k)`, `endFrame j` is `(END, j, 0)`. -/
inductive SeqState where
  | start (k : Fin 4)
  | pixel (i : Nat) (k : Fin 4)
  | endFrame (j : Nat)
  deriving DecidableEq, Repr

/-- The transport's side of `transfer` (R151, R166, U1): an input. -/
inductive Transport where
  /-- Every `transfer` returns: the fairness assumption of R166 (D29). -/
  | fair
  /-- `k` more bytes are taken and the `transfer` of the last of them never returns; with `k = 0` the block already
  waits in a `transfer` that never returns. -/
  | stuckAfter (k : Nat)
  deriving DecidableEq, Repr

/-- The state of one instance. `BUF`, `N`, `VALID`, `BRT`, `SEQ` are the block's (R23); `cfg` is its configuration (R7);
`out` and `rsps` are what is observed of it (R29, R167); `cmds`, `allocs`, `transport` are its inputs (R220, R219, R151);
`draws` is the model's own. -/
structure State where
  /-- The configuration, which no operation writes (R7, R23). -/
  cfg       : Config
  /-- `BUF`, the pixel buffer, addresses `0 .. 3*N-1` (R24). -/
  buf       : Memory
  /-- `N`, the pixel count (R25). -/
  n         : Half
  /-- `VALID`, the buffer-present flag (R26). -/
  valid     : Bool
  /-- `BRT`, the stored brightness (R27). -/
  brt       : Byte
  /-- `SEQ`, while a SHOW is in progress (R28). -/
  seq       : Option SeqState
  /-- `OUT`, the bytes handed to the transport since reset, oldest first (R12, R29). -/
  out       : List Byte
  /-- The response words driven since reset, oldest first (R69, R167). -/
  rsps      : List Word
  /-- The command words the host has still to issue, next first (R67, R167). -/
  cmds      : List Word
  /-- The draws of `alloc_ok` the environment has named, next first (R131, R219). -/
  allocs    : List Bool
  /-- The model's own: how many draws have been made; it indexes the free value where `allocs` names none. -/
  draws     : Nat
  /-- What the transport does with the bytes it is handed (R151, R166). -/
  transport : Transport
  deriving DecidableEq, Repr

/-- Why the machine stops with a fault. -/
inductive Fault where
  /-- Raised by `step` where a SHOW waits in a `transfer` that never returns: the block hangs and accepts nothing
  further (R166, U1 `stuck`). Safe: the hardware does nothing either. -/
  | transferNeverReturns
  deriving DecidableEq, Repr

/-- Why the model gives no meaning. -/
inductive Refusal where
  /-- An instruction whose meaning is not written yet; raised in `exec`'s arm only. Safe. -/
  | notModelled (mnemonic : String)
  /-- Raised by `step` on a command word that is `INVALID`: the model refuses the run (R71, R204). Safe. -/
  | invalidCommand (why : Invalid)
  /-- Raised by `construct` on a channel order that is no permutation of {0,1,2} (R42, U4). Safe. -/
  | channelOrderNotPermutation (rOff gOff bOff : Nat)
  deriving DecidableEq, Repr

/-- Construction with the configuration `cfg` and the drawn bit `allocOk` (R31, R210, R211); inputs start empty and the
transport fair (D29). -/
def State.resetWith (cfg : Config) (allocOk : Bool) : State :=
  { cfg := cfg, buf := [], n := if allocOk then cfg.n0 else 0#16, valid := allocOk, brt := 0x00#8, seq := none,
    out := [], rsps := [], cmds := [], allocs := [], draws := 0, transport := .fair }

/-- The machine right after reset: the configuration of the spec's program P1 with `alloc_ok = 1` at reset
(DESIGN CHOICE, notes/assumptions/4.md and 5.md); every other field is R31's. -/
def State.reset : State := State.resetWith Config.reference true

end Sys2Proof.Machine
end

