-- ==== Sys2Proof/Machine/Ops.lean ====
section
/-! DEFINITION. The named operations the meanings share: the pixel buffer's bytes, the response port, the transport's
`emit`, the draw of `alloc_ok`, (re)allocation, construction. The block takes no exception (R190, R198): there is no
trap entry and no return from one. -/

namespace Sys2Proof.Machine

/-- `BUF[a]` (R11, R45). -/
def Memory.read : Memory → Nat → Byte
  | [], _ => Memory.unlisted
  | c :: m, a => if c.1 = a then c.2 else Memory.read m a

/-- The entry `(a, v)` put in its place in the order of addresses. -/
def Memory.insertCell : Memory → Nat → Byte → Memory
  | [], a, v => [(a, v)]
  | c :: m, a, v => if a < c.1 then (a, v) :: c :: m else c :: Memory.insertCell m a v

/-- `BUF[a] <- v` (R11, R45): the older entry goes, and `v` is listed unless an unlisted address reads as it. -/
def Memory.write (m : Memory) (a : Nat) (v : Byte) : Memory :=
  if v = Memory.unlisted then m.filter (fun c => c.1 != a) else Memory.insertCell (m.filter (fun c => c.1 != a)) a v

/-- The canonical memory whose bytes below `len` are those of `f`, every other byte unlisted. -/
def Memory.tabulate (len : Nat) (f : Nat → Byte) : Memory :=
  (List.range len).filterMap (fun a => if f a = Memory.unlisted then none else some (a, f a))

/-- The size of `BUF` in bytes (R24). -/
def bufSize (s : State) : Nat := 3 * s.n.toNat

/-- The bytes of `BUF` in address order (R24). -/
def bufBytes (s : State) : List Byte := (List.range (bufSize s)).map (Memory.read s.buf)

/-- `rsp <- w`: the response word of the operation that completes (R12, R69). -/
def respond (s : State) (w : Word) : State := { s with rsps := s.rsps ++ [w] }

/-- `emit(b)`: `b` is handed to the transport and appended to `OUT` (R12, R195). -/
def emit (s : State) (b : Byte) : State := { s with out := s.out ++ [b] }

/-- The bit `draw alloc_ok` takes: the next one the environment names, or a free value (R131, R219). -/
def allocOk (s : State) : Bool :=
  match s.allocs with
  | b :: _ => b
  | [] => Config.allocOpen s.draws

/-- The draw is made: its input is consumed and counted. -/
def afterDraw (s : State) : State := { s with allocs := s.allocs.tail, draws := s.draws + 1 }

/-- (Re)allocation of the buffer for `n` pixels: present and zeroed, or, where it fails, absent with `N` 0 (R131, R192). -/
def allocate (s : State) (ok : Bool) (n : Half) : State :=
  { s with valid := ok, n := if ok then n else 0#16, buf := [] }

/-- Construction of an instance from the three offsets of `ORDER`, the rest of the configuration and the drawn bit; a
triple that is no permutation is refused (R42, R210), and nothing else is. -/
def construct (rOff gOff bOff : Nat) (cfg : Config) (ok : Bool) : Host.Outcome State Fault Refusal :=
  match Order.ofOffsets rOff gOff bOff with
  | none => .refused (.channelOrderNotPermutation rOff gOff bOff)
  | some o => .next (State.resetWith { cfg with order := o } ok)

end Sys2Proof.Machine
end

