-- ==== Sys2Proof/Machine/Operands.lean ====
section
/-! DEFINITION. Where operands and results stand: channel offsets, pixel addresses, packed colours, response words. -/

namespace Sys2Proof.Machine

/-- The position of a colour's byte in a pixel: `rOff`, `gOff`, `bOff` (R41, R42). -/
def chanOffset : Order → Channel → Nat
  | .rgb, .red => 0 | .rgb, .green => 1 | .rgb, .blue => 2
  | .rbg, .red => 0 | .rbg, .green => 2 | .rbg, .blue => 1
  | .grb, .red => 1 | .grb, .green => 0 | .grb, .blue => 2
  | .gbr, .red => 2 | .gbr, .green => 0 | .gbr, .blue => 1
  | .brg, .red => 1 | .brg, .green => 2 | .brg, .blue => 0
  | .bgr, .red => 2 | .bgr, .green => 1 | .bgr, .blue => 0

/-- The byte of a colour's channel. -/
def chanByte (c : Rgb) : Channel → Byte
  | .red => c.r
  | .green => c.g
  | .blue => c.b

/-- The address of one channel of pixel `i`: `3*i + offset` (R41). -/
def pixelAddr (o : Order) (i : Nat) (ch : Channel) : Nat := 3 * i + chanOffset o ch

/-- The byte at buffer position `p` of a pixel with the colour `c` (R41, R136; for mantissas R157). -/
def byteAtPosition (o : Order) (c : Rgb) (p : Nat) : Byte :=
  if p = chanOffset o .red then c.r else if p = chanOffset o .green then c.g else c.b

/-- The stored colour of pixel `i` (R41). -/
def readPixel (s : State) (i : Nat) : Rgb :=
  { r := Memory.read s.buf (pixelAddr s.cfg.order i .red)
    g := Memory.read s.buf (pixelAddr s.cfg.order i .green)
    b := Memory.read s.buf (pixelAddr s.cfg.order i .blue) }

/-- The three byte writes of one pixel (R132). -/
def writePixel (s : State) (i : Nat) (c : Rgb) : State :=
  { s with
    buf :=
      Memory.write
        (Memory.write (Memory.write s.buf (pixelAddr s.cfg.order i .red) c.r) (pixelAddr s.cfg.order i .green) c.g)
        (pixelAddr s.cfg.order i .blue) c.b }

/-- Packed RGB, `(0, R, G, B)` MSB first (R61). -/
def packRgb (c : Rgb) : Packed := 0x00#8 ++ c.r ++ c.g ++ c.b

/-- An 8-bit result in bits 7:0 (R69). -/
def rspByte (b : Byte) : Word := b.setWidth 64

/-- A 16-bit result in bits 15:0 (R69). -/
def rspHalf (h : Half) : Word := h.setWidth 64

/-- A packed colour in bits 31:0 (R69). -/
def rspPacked (p : Packed) : Word := p.setWidth 64

/-- The HD tuple in bits 28:0: `power`, red, green, blue (R63, R69). -/
def rspHd (h : Hd) : Word := (h.power ++ h.r ++ h.g ++ h.b : BitVec 29).setWidth 64

/-- The EXPAND result: `r16` in bits 47:32, `g16` in 31:16, `b16` in 15:0 (R69). -/
def rspRgb16 (c : Rgb16) : Word := (c.r ++ c.g ++ c.b : BitVec 48).setWidth 64

end Sys2Proof.Machine
end

