-- ==== Sys2Proof/Machine/Params.lean ====
section
/-! DEFINITION. Reading the configuration's tables and one-argument functions (R7). -/

namespace Sys2Proof.Machine

/-- A parameter held as given points: the value of the first point given at `x`, else `base x`. -/
def paramAt {α β : Type} [BEq α] (points : List (α × β)) (base : α → β) (x : α) : β :=
  (points.lookup x).getD (base x)

/-- `GAMMA8[x]` (R90); entry 0 is 0 (R91), every other entry is given or open. A point given at 0 says nothing, since
every legal table has 0 there (notes/assumptions/22.md). -/
def gamma8At (cfg : Config) (x : Byte) : Byte :=
  if x = 0#8 then 0#8 else paramAt cfg.gamma8 Config.gamma8Open x

/-- `GAMMA16[255]` under R93: the given or open value `v` where it is at least 65024 = `0xFE00`; a point below that is no
entry of a legal table and counts for nothing, so the entry is then open within the bound (notes/assumptions/22.md). -/
def gamma16Last (v : Half) : Half := if 65024 ≤ v.toNat then v else 0xFE00#16 ||| Config.gamma16Open 255#8

/-- `GAMMA16[x]` (R92), given or open. With the default `EXPAND` entry 0 is 0 and entry 255 is at least 65024 (R93); with
`EXPAND` replaced no entry is constrained (93_implementation_defined.md U7: R93 is for the default `EXPAND` only). -/
def gamma16At (cfg : Config) (x : Byte) : Half :=
  if cfg.expand.isEmpty && x == 0#8 then 0#16
  else if cfg.expand.isEmpty && x == 255#8 then gamma16Last (paramAt cfg.gamma16 Config.gamma16Open x)
  else paramAt cfg.gamma16 Config.gamma16Open x

/-- `SINE8[x]`, given or open, with no constraint (R185). -/
def sine8At (cfg : Config) (x : Byte) : Byte := paramAt cfg.sine8 Config.sine8Open x

/-- The default `EXPAND`: one lookup in `GAMMA16` per channel (R97). -/
def expandDefault (cfg : Config) (c : Rgb) : Rgb16 :=
  { r := gamma16At cfg c.r, g := gamma16At cfg c.g, b := gamma16At cfg c.b }

/-- The configured `EXPAND` (R97, R98). -/
def expandAt (cfg : Config) (c : Rgb) : Rgb16 := paramAt cfg.expand (expandDefault cfg) c

/-- The default `END_BYTES`: `ceil((N+15)/16)` with exact division, `floor((N+30)/16)` (R160; D14 and C4 fix the reading). -/
def endBytesDefault (n : Half) : Nat := (n.toNat + 30) / 16

/-- The configured `END_BYTES(N)` (R160). -/
def endBytesAt (cfg : Config) (n : Half) : Nat := paramAt cfg.endBytes endBytesDefault n

/-- The default `HD_HEADER`: bits 7:5 ones, bits 4:0 the power level (R66, R157).
PRESUMED (D10, G2: from general knowledge, not in the source), notes/assumptions/8.md. -/
def hdHeaderDefault (p : BitVec 5) : Byte := 0xE0#8 ||| p.setWidth 8

/-- The configured `HD_HEADER(p)` (R157). -/
def hdHeaderAt (cfg : Config) (p : BitVec 5) : Byte := paramAt cfg.hdHeader hdHeaderDefault p

end Sys2Proof.Machine
end

