-- ==== Sys2Proof/Machine/Ancillary.lean ====
section
/-! DEFINITION. The ancillary colour functions SINE8 and HSV (R180 to R186). -/

namespace Sys2Proof.Machine

/-- SINE8 (R185). -/
def execSine8 (x : Byte) (s : State) : Host.Outcome State Fault Refusal :=
  .next (respond s (rspByte (sine8At s.cfg x)))

/-- The hexcone index of a hue: `(hue * 1530 + 32768) / 65536` (R181). -/
def hueIndex (hue : Half) : Nat := (hue.toNat * 1530 + 32768) / 65536

/-- The unsaturated `(r, g, b)` of a hexcone index (R182).
PRESUMED (D27, G3: from general knowledge, not in the source), notes/assumptions/9.md. -/
def hexcone (h : Nat) : Nat × Nat × Nat :=
  if h < 255 then (255, h, 0)
  else if h < 510 then (510 - h, 255, 0)
  else if h < 765 then (0, 255, h - 510)
  else if h < 1020 then (0, 1020 - h, 255)
  else if h < 1275 then (h - 1020, 0, 255)
  else if h < 1530 then (255, 0, 1530 - h)
  else (255, 0, 0)

/-- `t(c) = (((c * s1) >> 8) + s2) * v1` with `s1 = sat+1`, `s2 = 255-sat`, `v1 = val+1` (R183). -/
def satVal (sat val : Byte) (c : Nat) : Nat :=
  (((c * (sat.toNat + 1)) >>> 8) + (255 - sat.toNat)) * (val.toNat + 1)

/-- A channel of the result: `t(c)[15:8]` (R183). -/
def hsvChannel (sat val : Byte) (c : Nat) : Byte := BitVec.ofNat 8 (satVal sat val c >>> 8)

/-- The colour of a hue, saturation and value (R181 to R184). -/
def hsvColour (hue : Half) (sat val : Byte) : Rgb :=
  { r := hsvChannel sat val (hexcone (hueIndex hue)).1
    g := hsvChannel sat val (hexcone (hueIndex hue)).2.1
    b := hsvChannel sat val (hexcone (hueIndex hue)).2.2 }

/-- HSV (R184). -/
def execHsv (hue : Half) (sat val : Byte) (s : State) : Host.Outcome State Fault Refusal :=
  .next (respond s (rspPacked (packRgb (hsvColour hue sat val))))

end Sys2Proof.Machine
end

