-- ==== Sys2Proof/Machine/Brightness.lean ====
section
/-! DEFINITION. The brightness operations SETBRT, GETBRT and the scaling function `scale8` (R62, R137 to R141). -/

namespace Sys2Proof.Machine

/-- `stored = (logical + 1) mod 256` (R62). -/
def storedOfLogical (l : Byte) : Byte := l + 1#8

/-- `logical = (stored + 255) mod 256` (R62). -/
def logicalOfStored (b : Byte) : Byte := b + 255#8

/-- SETBRT (R137). -/
def execSetbrt (l : Byte) (s : State) : Host.Outcome State Fault Refusal :=
  .next (respond { s with brt := storedOfLogical l } 0#64)

/-- GETBRT (R138). -/
def execGetbrt (s : State) : Host.Outcome State Fault Refusal :=
  .next (respond s (rspByte (logicalOfStored s.brt)))

/-- `scale8(byte, s)`: stored 0 passes the byte through, else `(byte * s) >> 8` (R139). -/
def scale8 (b stored : Byte) : Byte :=
  if stored = 0#8 then b else BitVec.ofNat 8 ((b.toNat * stored.toNat) >>> 8)

end Sys2Proof.Machine
end

