-- ==== Sys2Proof/Machine/Quantizer.lean ====
section
/-! DEFINITION. The HD colour quantizer (R110 to R124) and its operation HDQ. -/

namespace Sys2Proof.Machine

/-- A level of the search: the power and the scale factor in effect (R113, R114). -/
structure Level where
  power : BitVec 5
  num   : Nat
  den   : Nat
  deriving DecidableEq, Repr

/-- One test of the ladder, on all three channels: `channel16 * num <= 65535 * den` (R114). -/
def fits (c : Rgb16) (num den : Nat) : Bool :=
  decide (c.r.toNat * num ≤ 65535 * den) && decide (c.g.toNat * num ≤ 65535 * den) &&
    decide (c.b.toNat * num ≤ 65535 * den)

/-- The ladder: from power 31 through 15, 7, 3 to 1, the first failing test stops the search (R113, R114). -/
def ladder (c : Rgb16) : Level :=
  if fits c 31 15 then
    if fits c 465 105 then
      if fits c 3255 315 then
        if fits c 9765 315 then { power := 1#5, num := 9765, den := 315 }
        else { power := 3#5, num := 3255, den := 315 }
      else { power := 7#5, num := 465, den := 105 }
    else { power := 15#5, num := 31, den := 15 }
  else { power := 31#5, num := 1, den := 1 }

/-- The rescaled channel: the product first, then the floor division (R115). -/
def rescale (l : Level) (c : Half) : Nat := c.toNat * l.num / l.den

/-- The high byte of a rescaled value, with the boundary correction on the quantizer's own 8-bit input (R116). -/
def mantissa (in8 : Byte) (s : Nat) : Byte :=
  if in8 = 255#8 ∧ s >>> 8 ≥ 254 then 255#8 else BitVec.ofNat 8 (s >>> 8)

/-- The quantizer after the expansion: the ladder, the rescale, the mantissas (R114 to R117). -/
def quantizeExpanded (in8 : Rgb) (c : Rgb16) : Hd :=
  { r := mantissa in8.r (rescale (ladder c) c.r)
    g := mantissa in8.g (rescale (ladder c) c.g)
    b := mantissa in8.b (rescale (ladder c) c.b)
    power := (ladder c).power }

/-- `QUANT_DEFAULT`: the configured `EXPAND`, once, then the six steps (R111, R112). -/
def quantDefault (cfg : Config) (c : Rgb) : Hd := quantizeExpanded c (expandAt cfg c)

/-- The configured `QUANT` (R111, R124). -/
def quantAt (cfg : Config) (c : Rgb) : Hd := paramAt cfg.quant (quantDefault cfg) c

/-- HDQ (R123). -/
def execHdq (c : Rgb) (s : State) : Host.Outcome State Fault Refusal :=
  .next (respond s (rspHd (quantAt s.cfg c)))

end Sys2Proof.Machine
end

