-- ==== Sys2Proof/Machine/FrameEncoder.lean ====
section
/-! DEFINITION. The frame encoder (R150 to R167): the frame as a list of bytes, the byte-by-byte sequencer, and SHOW. -/

namespace Sys2Proof.Machine

/-- `END_BYTES(N)` of this instance's length (R160). -/
def endBytes (s : State) : Nat := endBytesAt s.cfg s.n

/-- The stored byte at `a` as it is emitted: scaled by the brightness (R139, R141). -/
def scaledByte (s : State) (a : Nat) : Byte := scale8 (Memory.read s.buf a) s.brt

/-- The scaled colour of pixel `i` that HD mode gives to the quantizer (R157, R158). -/
def scaledPixel (s : State) (i : Nat) : Rgb :=
  { r := scaledByte s (pixelAddr s.cfg.order i .red)
    g := scaledByte s (pixelAddr s.cfg.order i .green)
    b := scaledByte s (pixelAddr s.cfg.order i .blue) }

/-- `QUAD(i)` in standard mode: the marker, then the three scaled bytes in buffer position order (R155). -/
def standardQuad (s : State) (i : Nat) : List Byte :=
  [0xFF#8, scaledByte s (3 * i), scaledByte s (3 * i + 1), scaledByte s (3 * i + 2)]

/-- The four bytes an HD tuple goes out as: the header, then the mantissas in buffer position order (R157). -/
def hdBytes (cfg : Config) (h : Hd) : List Byte :=
  let m : Rgb := { r := h.r, g := h.g, b := h.b }
  [hdHeaderAt cfg h.power, byteAtPosition cfg.order m 0, byteAtPosition cfg.order m 1, byteAtPosition cfg.order m 2]

/-- `QUAD(i)` in HD mode (R157). -/
def hdQuad (s : State) (i : Nat) : List Byte := hdBytes s.cfg (quantAt s.cfg (scaledPixel s i))

/-- `QUAD(i)` (R152): R155 or, in HD mode, R157. -/
def quad (s : State) (i : Nat) : List Byte := if s.cfg.hd then hdQuad s i else standardQuad s i

/-- `FRAME`: the start frame, the quads in index order, the end frame (R152, R154, R160, R162). -/
def frame (s : State) : List Byte :=
  List.replicate 4 0x00#8 ++ (List.range s.n.toNat).flatMap (quad s) ++ List.replicate (endBytes s) 0xFF#8

/-- The length of `FRAME` (R161). -/
def frameLength (s : State) : Nat := 4 + 4 * s.n.toNat + endBytes s

/-- The byte emitted at a position of the sequencer (R165). -/
def seqByte (s : State) : SeqState → Byte
  | .start _ => 0x00#8
  | .pixel i k => (quad s i).getD k.val 0x00#8
  | .endFrame _ => 0xFF#8

/-- The first position of the end frame; none where a configuration gives no end byte (R160, R165). -/
def endEntry (s : State) : Option SeqState := if 0 < endBytes s then some (.endFrame 0) else none

/-- The next position of the sequencer; none where the frame is done (R165). -/
def seqNext (s : State) : SeqState → Option SeqState
  | .start k =>
    if k.val < 3 then some (.start (k + 1))
    else if 0 < s.n.toNat then some (.pixel 0 0) else endEntry s
  | .pixel i k =>
    if k.val < 3 then some (.pixel i (k + 1))
    else if i + 1 < s.n.toNat then some (.pixel (i + 1) 0) else endEntry s
  | .endFrame j => if j + 1 < endBytes s then some (.endFrame (j + 1)) else none

/-- The `transfer` has returned: `SEQ` moves on, or ceases and the response is driven (R165). -/
def seqAdvance (s : State) (q : SeqState) : State :=
  match seqNext s q with
  | some q' => { s with seq := some q' }
  | none => respond { s with seq := none } 0#64

/-- One step of the sequencer at `q` (R165): one `transfer`. Where it never returns, its byte is in `OUT` (R195) and
`SEQ` stays (R166); where the block already waits in such a `transfer`, nothing happens. -/
def seqStep (s : State) (q : SeqState) : State :=
  match s.transport with
  | .fair => seqAdvance (emit s (seqByte s q)) q
  | .stuckAfter 0 => s
  | .stuckAfter 1 => { emit s (seqByte s q) with seq := some q, transport := .stuckAfter 0 }
  | .stuckAfter (k + 2) => seqAdvance { emit s (seqByte s q) with transport := .stuckAfter (k + 1) } q

/-- At most `fuel` steps of the sequencer, to the end of the SHOW (R166). -/
def runSeq : Nat → State → State
  | 0, s => s
  | fuel + 1, s =>
    match s.seq with
    | none => s
    | some q => runSeq fuel (seqStep s q)

/-- SHOW: accepted with the buffer present it starts the sequencer and runs it to completion (R152, R165, R166), or to
the `transfer` that never returns (U1); with the buffer absent it makes no transport call (R153). -/
def execShow (s : State) : Host.Outcome State Fault Refusal :=
  .next (if s.valid then runSeq (frameLength s) { s with seq := some (.start 0) } else respond s 0#64)

end Sys2Proof.Machine
end

