-- ==== Sys2Proof/Machine/Gamma.lean ====
section
/-! DEFINITION. The gamma table operations GAMMA8, GAMMA16, GAMMA32, EXPAND (R94 to R99). -/

namespace Sys2Proof.Machine

/-- GAMMA8 (R94). -/
def execGamma8 (x : Byte) (s : State) : Host.Outcome State Fault Refusal :=
  .next (respond s (rspByte (gamma8At s.cfg x)))

/-- GAMMA16 (R95). -/
def execGamma16 (x : Byte) (s : State) : Host.Outcome State Fault Refusal :=
  .next (respond s (rspHalf (gamma16At s.cfg x)))

/-- `GAMMA8` on each of the four byte lanes of a packed word (R96). -/
def gamma32Of (cfg : Config) (c : Packed) : Packed :=
  gamma8At cfg (c.extractLsb' 24 8) ++ gamma8At cfg (c.extractLsb' 16 8) ++ gamma8At cfg (c.extractLsb' 8 8) ++
    gamma8At cfg (c.extractLsb' 0 8)

/-- GAMMA32 (R96). -/
def execGamma32 (c : Packed) (s : State) : Host.Outcome State Fault Refusal :=
  .next (respond s (rspPacked (gamma32Of s.cfg c)))

/-- EXPAND (R97, R98). -/
def execExpand (c : Rgb) (s : State) : Host.Outcome State Fault Refusal :=
  .next (respond s (rspRgb16 (expandAt s.cfg c)))

end Sys2Proof.Machine
end

