-- ==== Sys2Proof/Machine/Flags.lean ====
section
/-! DEFINITION. The one status bit. The block has no condition codes and no flag that an operation sets as a side effect
(R22); `VALID` is its one status bit, and this is the test the pixel operations make of it. -/

namespace Sys2Proof.Machine

/-- A pixel index is in range: `VALID = 1` and `i < N` (R46, R193). -/
def inRange (s : State) (i : Half) : Bool := s.valid && decide (i.toNat < s.n.toNat)

end Sys2Proof.Machine
end

