-- ==== Sys2Proof/Machine/PixelBuffer.lean ====
section
/-! DEFINITION. The pixel buffer operations SETLEN, SETPIX, GETPIX, FILL (R130 to R136). -/

namespace Sys2Proof.Machine

/-- SETLEN (R131). -/
def execSetlen (n : Half) (s : State) : Host.Outcome State Fault Refusal :=
  .next (respond (allocate (afterDraw s) (allocOk s) n) 0#64)

/-- SETPIX: out of range it writes nothing (R132, R193). -/
def execSetpix (i : Half) (c : Rgb) (s : State) : Host.Outcome State Fault Refusal :=
  .next (respond (if inRange s i then writePixel s i.toNat c else s) 0#64)

/-- GETPIX: out of range it answers the sentinel 0 (R133, R193). -/
def execGetpix (i : Half) (s : State) : Host.Outcome State Fault Refusal :=
  .next (respond s (if inRange s i then rspPacked (packRgb (readPixel s i.toNat)) else 0#64))

/-- All of `BUF` written with one colour: byte `a` is the one at position `a mod 3` (R134). -/
def fillPixels (s : State) (c : Rgb) : State :=
  { s with buf := Memory.tabulate (bufSize s) (fun a => byteAtPosition s.cfg.order c (a % 3)) }

/-- FILL: with the buffer absent it writes nothing (R134, R191 E5). -/
def execFill (c : Rgb) (s : State) : Host.Outcome State Fault Refusal :=
  .next (respond (if s.valid then fillPixels s c else s) 0#64)

end Sys2Proof.Machine
end

