-- ==== Sys2Proof/Machine/Dispatch.lean ====
section
/-! DEFINITION. One arm per operation (R70). -/

namespace Sys2Proof.Machine

def exec (i : Instr) (s : State) : Host.Outcome State Fault Refusal :=
  match i with
  | .gamma8 x => Sys2Proof.Machine.execGamma8 x s
  | .gamma16 x => Sys2Proof.Machine.execGamma16 x s
  | .gamma32 c => Sys2Proof.Machine.execGamma32 c s
  | .expand c => Sys2Proof.Machine.execExpand c s
  | .sine8 x => Sys2Proof.Machine.execSine8 x s
  | .hsv hue sat val => Sys2Proof.Machine.execHsv hue sat val s
  | .hdq c => Sys2Proof.Machine.execHdq c s
  | .setlen n => Sys2Proof.Machine.execSetlen n s
  | .setpix idx c => Sys2Proof.Machine.execSetpix idx c s
  | .getpix idx => Sys2Proof.Machine.execGetpix idx s
  | .fill c => Sys2Proof.Machine.execFill c s
  | .setbrt l => Sys2Proof.Machine.execSetbrt l s
  | .getbrt => Sys2Proof.Machine.execGetbrt s
  | .showFrame => Sys2Proof.Machine.execShow s

end Sys2Proof.Machine
end

