-- ==== Sys2Proof/Machine/Step.lean ====
section
/-! DEFINITION. One step: the next command word from the command port, decoded and run to completion (R50, R67). -/

namespace Sys2Proof.Machine

/-- One step. While a SHOW is in progress no command is accepted (R166): the SHOW goes on, or, where it waits in a
`transfer` that never returns, the block hangs (U1). Otherwise the next command is accepted and run; an `INVALID` word is
refused (R71, R204); with no command left the block waits at its port (R167, notes/assumptions/7.md). -/
def step (s : State) : Host.Outcome State Fault Refusal :=
  match s.seq with
  | some _ =>
    if s.transport = .stuckAfter 0 then .fault .transferNeverReturns else .next (runSeq (frameLength s) s)
  | none =>
    match s.cmds with
    | [] => .next s
    | w :: rest =>
      match decode w with
      | .ok i => exec i { s with cmds := rest }
      | .error why => .refused (.invalidCommand why)

/-- `s` with that command word as the next the host issues and no SHOW in progress, so that the very next step accepts
it; nothing else changes. -/
def State.withFetchWord (s : State) (nbits w : Nat) : State :=
  { s with seq := none, cmds := tableWord nbits w :: s.cmds }

end Sys2Proof.Machine
end

