-- ==== Sys2Proof/Safety.lean ====
section
/-! DEFINITION. What the statements are written in: the invariant of the block, a run of
operations, a safe step. -/

namespace Sys2Proof.Machine

/-- A position the sequencer can stand at (R165): a pixel of the buffer, an end byte of the frame. -/
def seqLegal (s : State) : SeqState → Prop
  | .start _ => True
  | .pixel i _ => i < s.n.toNat
  | .endFrame j => j < endBytes s

/-- The invariant of the block between two steps: the buffer is in its canonical form and lists only addresses of
`0 .. 3*N-1` (R24); an absent buffer has `N` 0 and no bytes (R25, R24); a SHOW that is still in progress has a present
buffer, a legal position and a transport that never returns (R50, R166). -/
structure BlockInv (s : State) : Prop where
  bufCanonical : Memory.wf s.buf
  bufInside    : ∀ c ∈ s.buf, c.1 < bufSize s
  absentEmpty  : s.valid = false → s.n = 0#16 ∧ s.buf = []
  showStuck    : ∀ q, s.seq = some q → s.valid = true ∧ seqLegal s q ∧ s.transport = .stuckAfter 0

/-- The operations of a list, run one after the other (R50): the first stop ends the run. -/
def execAll : List Instr → State → Host.Outcome State Fault Refusal
  | [], s => .next s
  | i :: l, s =>
    match exec i s with
    | .next t => execAll l t
    | .fault r => .fault r
    | .refused r => .refused r

/-- A safe step: the machine goes on. -/
def SafeStep (s : State) : Prop := ∃ t, step s = .next t

/-- The block hangs: it waits in a `transfer` that never returns (R166, U1). -/
def Hung (s : State) : Prop := s.seq ≠ none ∧ s.transport = .stuckAfter 0

end Sys2Proof.Machine
end

