-- ==== Sys2Proof/Certificates/Slice0/Obligations.lean ====
section
/-! DEFINITION. The statements for the provers. -/

open Sys2Proof Sys2Proof.Machine

/-! ### Command words -/

/-- R67, R68, R70, R73: decoding an encoded operation gives it back, every operand at every value. -/
def Obligations.DecodeOfEncodeIsIdentity : Prop :=
  ∀ i : Instr, decode (encode i) = .ok i

/-- R68: bits of `a` and `d` that the decoded operation does not name are ignored, and the others are all read: two words
with the same `op`, `rsv` and named bits decode alike, and the encoder gives back exactly those bits. -/
def Obligations.UnnamedBitsAreIgnored : Prop :=
  ∀ (w : Word) (i : Instr), decode w = .ok i →
    encode i = w &&& (0xFFFF000000000000#64 ||| namedBits i) ∧
    ∀ v : Word, v &&& (0xFFFF000000000000#64 ||| namedBits i) = w &&& (0xFFFF000000000000#64 ||| namedBits i) →
      decode v = .ok i

/-- R71: the decoder maps each word to one operation or to `INVALID`; `INVALID` are exactly the words with `rsv` not zero
and those with a reserved `op`; and a block that accepts an `INVALID` word refuses the run. THE MODEL'S CHOICE: the spec
has one `INVALID`; that it carries a reason, and that of a word with both the reason is `rsvNotZero`, is
notes/assumptions/17.md; that the refusal mark is the outcome `refused` is notes/assumptions/18.md. -/
def Obligations.InvalidWordsAreTheReservedOnes : Prop :=
  ∀ w : Word,
    (w.toNat / 2 ^ 48 % 256 ≠ 0 → decode w = .error (.rsvNotZero (w.extractLsb' 48 8))) ∧
    (w.toNat / 2 ^ 48 % 256 = 0 →
      w.toNat / 2 ^ 56 ∉ [0x01, 0x02, 0x03, 0x04, 0x05, 0x06, 0x08, 0x10, 0x11, 0x12, 0x13, 0x14, 0x15, 0x20] →
      decode w = .error (.reservedOpcode (w.extractLsb' 56 8))) ∧
    (w.toNat / 2 ^ 48 % 256 = 0 →
      w.toNat / 2 ^ 56 ∈ [0x01, 0x02, 0x03, 0x04, 0x05, 0x06, 0x08, 0x10, 0x11, 0x12, 0x13, 0x14, 0x15, 0x20] →
      ∃ i, decode w = .ok i ∧ (opcodeOf i).toNat = w.toNat / 2 ^ 56) ∧
    (∀ why, decode w = .error why → ∀ (s : State) (rest : List Word), s.seq = none → s.cmds = w :: rest →
      step s = .refused (.invalidCommand why))

/-- 95_test_vectors.md 2.1: a few of the spec's own command words, decoded. -/
def Obligations.SampleWordsDecode : Prop :=
  decode 0x0100FFFFFFFFFF80#64 = .ok (.gamma8 0x80#8) ∧
  decode 0x11000003AA112233#64 = .ok (.setpix 3#16 { r := 0x11#8, g := 0x22#8, b := 0x33#8 }) ∧
  decode 0x060055550000FFFF#64 = .ok (.hsv 21845#16 255#8 255#8) ∧
  decode 0x20001234DEADBEEF#64 = .ok .showFrame ∧
  decode 0x0700000000000000#64 = .error (.reservedOpcode 0x07#8) ∧
  decode 0x0101000000000080#64 = .error (.rsvNotZero 0x01#8)

/-- First clause, THE MODEL'S CHOICE and no rule's (notes/assumptions/16.md): a line with a number that does not fit its
field assembles to nothing. Second clause, R73 and R74: the encoding of a line is the command word with the named fields
set and every other bit 0. -/
def Obligations.LineEncodesItsNamedFields : Prop :=
  (∀ l : Line, l.wellFormed = false → assemble l = none) ∧
  (∀ (l : Line) (i : Instr), assemble l = some i →
    match l with
    | .gamma8 x => (encode i).toNat = 0x01 * 2 ^ 56 + x
    | .gamma16 x => (encode i).toNat = 0x02 * 2 ^ 56 + x
    | .gamma32 c32 => (encode i).toNat = 0x03 * 2 ^ 56 + c32
    | .expand rgb => (encode i).toNat = 0x04 * 2 ^ 56 + rgb
    | .sine8 x => (encode i).toNat = 0x05 * 2 ^ 56 + x
    | .hsv hue sat val => (encode i).toNat = 0x06 * 2 ^ 56 + hue * 2 ^ 32 + sat * 2 ^ 8 + val
    | .hdq rgb => (encode i).toNat = 0x08 * 2 ^ 56 + rgb
    | .setlen n => (encode i).toNat = 0x10 * 2 ^ 56 + n * 2 ^ 32
    | .setpix k rgb => (encode i).toNat = 0x11 * 2 ^ 56 + k * 2 ^ 32 + rgb
    | .getpix k => (encode i).toNat = 0x12 * 2 ^ 56 + k * 2 ^ 32
    | .fill rgb => (encode i).toNat = 0x13 * 2 ^ 56 + rgb
    | .setbrt b => (encode i).toNat = 0x14 * 2 ^ 56 + b
    | .getbrt => (encode i).toNat = 0x15 * 2 ^ 56
    | .showFrame => (encode i).toNat = 0x20 * 2 ^ 56
    | .clear => (encode i).toNat = 0x13 * 2 ^ 56
    | .hsvHue hue => (encode i).toNat = 0x06 * 2 ^ 56 + hue * 2 ^ 32 + 255 * 2 ^ 8 + 255
    | .hsvHueSat hue sat => (encode i).toNat = 0x06 * 2 ^ 56 + hue * 2 ^ 32 + sat * 2 ^ 8 + 255
    | .setpixBytes k r g b => (encode i).toNat = 0x11 * 2 ^ 56 + k * 2 ^ 32 + r * 2 ^ 16 + g * 2 ^ 8 + b)

/-- R74: the pseudo-operations are the lines they expand to. -/
def Obligations.PseudoOperationsExpand : Prop :=
  assemble .clear = assemble (.fill 0x000000) ∧
  (∀ hue, assemble (.hsvHue hue) = assemble (.hsv hue 255 255)) ∧
  (∀ hue sat, assemble (.hsvHueSat hue sat) = assemble (.hsv hue sat 255)) ∧
  (∀ i r g b, r < 256 → g < 256 → b < 256 →
    assemble (.setpixBytes i r g b) = assemble (.setpix i ((r <<< 16) ||| (g <<< 8) ||| b)))

/-! ### A step -/

/-- R50, R67: with no SHOW in progress a step accepts the next command word of the port; where it decodes to an operation
the step is that operation's `exec` on the state with the word consumed, and nothing else is added around it. -/
def Obligations.StepRunsDecodedCommand : Prop :=
  ∀ (s : State) (w : Word) (rest : List Word) (i : Instr),
    s.seq = none → s.cmds = w :: rest → decode w = .ok i → step s = exec i { s with cmds := rest }

/-- With no command left to accept the block waits, its state as it was (the model's choice,
notes/assumptions/7.md; R167 ends the run there). -/
def Obligations.StepWithNoCommandWaits : Prop :=
  ∀ s : State, s.seq = none → s.cmds = [] → step s = .next s

/-- R190, R198, R204: nothing but the hang of R166 and an `INVALID` word stops the machine; every other step goes on. THE
MODEL'S, within the third case: that a step with no command left goes on (notes/assumptions/7.md; R167 and R221 end the run
there) and that a SHOW in progress with a transport that returns goes on (notes/assumptions/15.md; no run reaches it). -/
def Obligations.OnlyHangOrInvalidWordStops : Prop :=
  ∀ s : State,
    (Hung s ∧ step s = .fault .transferNeverReturns) ∨
    (∃ w rest why, s.seq = none ∧ s.cmds = w :: rest ∧ decode w = .error why ∧
      step s = .refused (.invalidCommand why)) ∨
    (¬ Hung s ∧ SafeStep s)

/-- R166: no command is accepted while `SEQ` exists: such a step leaves the port, the buffer, `N`, `VALID`, `BRT` and the
draws as they were, and in a block that hangs there is no such step at all. -/
def Obligations.NoCommandAcceptedDuringShow : Prop :=
  ∀ (s : State) (q : SeqState), s.seq = some q →
    (s.transport = .stuckAfter 0 → step s = .fault .transferNeverReturns) ∧
    (∀ t, step s = .next t →
      t.cmds = s.cmds ∧ t.buf = s.buf ∧ t.n = s.n ∧ t.valid = s.valid ∧ t.brt = s.brt ∧ t.cfg = s.cfg ∧
      t.allocs = s.allocs ∧ t.draws = s.draws)

/-! ### Reset and construction -/

/-- R31, R211: the state after reset, for every configuration and either draw of `alloc_ok`. -/
def Obligations.ResetValues : Prop :=
  ∀ (cfg : Config) (ok : Bool),
    (State.resetWith cfg ok).valid = ok ∧
    (State.resetWith cfg ok).n = (if ok then cfg.n0 else 0#16) ∧
    bufBytes (State.resetWith cfg ok) = List.replicate (if ok then 3 * cfg.n0.toNat else 0) 0x00#8 ∧
    (State.resetWith cfg ok).brt = 0x00#8 ∧
    (State.resetWith cfg ok).seq = none ∧
    (State.resetWith cfg ok).out = []

/-- R211: a SHOW as the first command after a reset that allocates emits the all-off frame, `FF 00 00 00` quads in
standard mode and `E1 00 00 00` quads in HD mode with the default expansion, quantizer and header (the header byte is
presumed, notes/assumptions/8.md); after one that does not it emits nothing. -/
def Obligations.FirstShowEmitsAllOffFrame : Prop :=
  ∀ cfg : Config,
    (∃ t, exec .showFrame (State.resetWith cfg false) = .next t ∧ t.out = []) ∧
    (cfg.hd = false →
      ∃ t, exec .showFrame (State.resetWith cfg true) = .next t ∧
        t.out = [0x00#8, 0x00#8, 0x00#8, 0x00#8] ++
          (List.replicate cfg.n0.toNat [0xFF#8, 0x00#8, 0x00#8, 0x00#8]).flatten ++
          List.replicate (endBytesAt cfg cfg.n0) 0xFF#8) ∧
    (cfg.hd = true → cfg.expand = [] → cfg.quant = [] → cfg.hdHeader = [] →
      ∃ t, exec .showFrame (State.resetWith cfg true) = .next t ∧
        t.out = [0x00#8, 0x00#8, 0x00#8, 0x00#8] ++
          (List.replicate cfg.n0.toNat [0xE1#8, 0x00#8, 0x00#8, 0x00#8]).flatten ++
          List.replicate (endBytesAt cfg cfg.n0) 0xFF#8)

/-- R42: a triple of offsets that is a permutation of {0,1,2} constructs the instance with those offsets, whatever table
entries are given, and the instance's tables keep R91 and, with the default `EXPAND`, R93 (93_implementation_defined.md U7);
any other triple is refused. THE MODEL'S CHOICE (notes/assumptions/22.md): a given entry that breaks one of the two rules
counts for nothing. -/
def Obligations.OnlyPermutationsConstruct : Prop :=
  ∀ (r g b : Nat) (cfg : Config) (ok : Bool),
    (r < 3 → g < 3 → b < 3 → r ≠ g → r ≠ b → g ≠ b →
      ∃ (o : Order) (t : State), construct r g b cfg ok = .next t ∧ t = State.resetWith { cfg with order := o } ok ∧
        chanOffset o .red = r ∧ chanOffset o .green = g ∧ chanOffset o .blue = b ∧
        gamma8At t.cfg 0#8 = 0#8 ∧
        (cfg.expand = [] → gamma16At t.cfg 0#8 = 0#16 ∧ 65024 ≤ (gamma16At t.cfg 255#8).toNat)) ∧
    (¬ (r < 3 ∧ g < 3 ∧ b < 3 ∧ r ≠ g ∧ r ≠ b ∧ g ≠ b) →
      construct r g b cfg ok = .refused (.channelOrderNotPermutation r g b))

/-- The invariant of the block holds after reset, for every configuration and either draw. -/
def Obligations.ResetMeetsInvariant : Prop :=
  BlockInv State.reset ∧ ∀ (cfg : Config) (ok : Bool), BlockInv (State.resetWith cfg ok)

/-- Every step keeps the invariant of the block (R24, R25, R28, R50). -/
def Obligations.StepKeepsInvariant : Prop :=
  ∀ s t : State, BlockInv s → step s = .next t → BlockInv t

/-! ### Rules of the whole machine -/

/-- R23, R22, R47, R99, R130, R164: who writes what. `BUF` only SETPIX, FILL, SETLEN; `N`, `VALID` and the draws only
SETLEN; `BRT` only SETBRT; `SEQ`, `OUT` and the transport only SHOW; the configuration and the port no operation. -/
def Obligations.WritersOfState : Prop :=
  ∀ (i : Instr) (s t : State), exec i s = .next t →
    t.cfg = s.cfg ∧ t.cmds = s.cmds ∧
    ((∀ k c, i ≠ .setpix k c) → (∀ c, i ≠ .fill c) → (∀ n, i ≠ .setlen n) → t.buf = s.buf) ∧
    ((∀ n, i ≠ .setlen n) → t.n = s.n ∧ t.valid = s.valid ∧ t.allocs = s.allocs ∧ t.draws = s.draws) ∧
    ((∀ l, i ≠ .setbrt l) → t.brt = s.brt) ∧
    (i ≠ .showFrame → t.seq = s.seq ∧ t.out = s.out ∧ t.transport = s.transport)

/-- R13, R69, R190: every operation runs to completion, in every state whose transport returns: it answers a next state
with exactly one more response, whose bits 63:48 are 0; and where no SHOW was in progress before, none is after. -/
def Obligations.EveryOperationDrivesOneResponse : Prop :=
  ∀ (i : Instr) (s : State), s.transport = .fair →
    ∃ (t : State) (z : Word), exec i s = .next t ∧ t.rsps = s.rsps ++ [z] ∧ z.toNat < 2 ^ 48 ∧
      (s.seq = none → t.seq = none)

/-- R99 (GAMMA8, GAMMA16, GAMMA32, EXPAND), R180 with R184 and R185 (HSV, SINE8), R123 (HDQ): the response of the seven
pure operations is a function of the command word and the configuration alone, no state is read or written and nothing is
emitted. -/
def Obligations.PureOperationsDependOnConfigurationOnly : Prop :=
  ∀ (w : Word) (i : Instr), decode w = .ok i →
    w.toNat / 2 ^ 56 ∈ [0x01, 0x02, 0x03, 0x04, 0x05, 0x06, 0x08] →
    ∀ cfg : Config, ∃ z : Word, ∀ s : State, s.cfg = cfg →
      exec i s = .next { s with rsps := s.rsps ++ [z] }

/-- In the absent state SETPIX and FILL write nothing (R191 E2 and E5, R192, R193), GETPIX answers 0 (E3, R193), SHOW makes
no transport call (R153, R194), and no operation other than SETLEN leaves the state (R26). Where `N` is not 0, a state no run
reaches, FILL's clause is deduced from E5 (notes/assumptions/20.md). -/
def Obligations.AbsentStateSilentlyIgnores : Prop :=
  ∀ s : State, s.valid = false →
    (∀ i c, exec (.setpix i c) s = .next { s with rsps := s.rsps ++ [0#64] }) ∧
    (∀ c, exec (.fill c) s = .next { s with rsps := s.rsps ++ [0#64] }) ∧
    (∀ i, exec (.getpix i) s = .next { s with rsps := s.rsps ++ [0#64] }) ∧
    exec .showFrame s = .next { s with rsps := s.rsps ++ [0#64] } ∧
    (∀ i t, (∀ n, i ≠ .setlen n) → exec i s = .next t → t.valid = false)

/-! ### Gamma tables -/

/-- R94 whole: the encoding, the operand, the response, and the corner case `x = 0`. -/
def Obligations.Gamma8Responds : Prop :=
  (∀ w : Word, w &&& 0xFFFF000000000000#64 = 0x0100000000000000#64 → decode w = .ok (.gamma8 (w.extractLsb' 0 8))) ∧
  (∀ (x : Byte) (s : State), ∃ z : Word,
    exec (.gamma8 x) s = .next { s with rsps := s.rsps ++ [z] } ∧ z.toNat = (gamma8At s.cfg x).toNat ∧
    (x = 0#8 → z = 0#64))

/-- R95, its corner cases by R93, which is for the default `EXPAND` only (93_implementation_defined.md U7): entry 0 is 0
and entry 255 is at least 65024. With `EXPAND` replaced the response is the table's entry with no constraint on it. -/
def Obligations.Gamma16Responds : Prop :=
  (∀ w : Word, w &&& 0xFFFF000000000000#64 = 0x0200000000000000#64 → decode w = .ok (.gamma16 (w.extractLsb' 0 8))) ∧
  (∀ (x : Byte) (s : State), ∃ z : Word,
    exec (.gamma16 x) s = .next { s with rsps := s.rsps ++ [z] } ∧ z.toNat = (gamma16At s.cfg x).toNat ∧
    (s.cfg.expand = [] → x = 0#8 → z = 0#64) ∧
    (s.cfg.expand = [] → x = 255#8 → 65024 ≤ z.toNat ∧ z.toNat ≤ 65535) ∧
    (s.cfg.expand ≠ [] → ∀ v, s.cfg.gamma16.lookup x = some v → z.toNat = v.toNat))

/-- R96 whole: the four lanes, each through `GAMMA8` on its own; a top byte 0 stays 0. -/
def Obligations.Gamma32MapsEachLane : Prop :=
  (∀ w : Word, w &&& 0xFFFF000000000000#64 = 0x0300000000000000#64 → decode w = .ok (.gamma32 (w.extractLsb' 0 32))) ∧
  (∀ (c : Packed) (s : State), ∃ z : Word,
    exec (.gamma32 c) s = .next { s with rsps := s.rsps ++ [z] } ∧
    z.toNat =
      (gamma8At s.cfg (c.extractLsb' 24 8)).toNat * 2 ^ 24 + (gamma8At s.cfg (c.extractLsb' 16 8)).toNat * 2 ^ 16 +
        (gamma8At s.cfg (c.extractLsb' 8 8)).toNat * 2 ^ 8 + (gamma8At s.cfg (c.extractLsb' 0 8)).toNat ∧
    (c.toNat < 2 ^ 24 → z.toNat < 2 ^ 24))

/-- R97 whole, with R98's call of the configured function: the encoding, the response, the default per channel. -/
def Obligations.ExpandResponds : Prop :=
  (∀ w : Word, w &&& 0xFFFF000000000000#64 = 0x0400000000000000#64 →
    decode w = .ok (.expand { r := w.extractLsb' 16 8, g := w.extractLsb' 8 8, b := w.extractLsb' 0 8 })) ∧
  (∀ (c : Rgb) (s : State), ∃ z : Word,
    exec (.expand c) s = .next { s with rsps := s.rsps ++ [z] } ∧
    z.toNat = (expandAt s.cfg c).r.toNat * 2 ^ 32 + (expandAt s.cfg c).g.toNat * 2 ^ 16 + (expandAt s.cfg c).b.toNat ∧
    (s.cfg.expand = [] →
      z.toNat = (gamma16At s.cfg c.r).toNat * 2 ^ 32 + (gamma16At s.cfg c.g).toNat * 2 ^ 16 +
        (gamma16At s.cfg c.b).toNat ∧
      (c = { r := 0#8, g := 0#8, b := 0#8 } → z = 0#64)))

/-- R7: every total function can be configured as `EXPAND` (R98), `QUANT` (R124), `END_BYTES` (R160), `HD_HEADER` (R157)
and `SINE8` (R185); the tables that can be configured as `GAMMA8` are exactly those with entry 0 zero (R90, R91); as
`GAMMA16`, with the default `EXPAND`, exactly those with entry 0 zero and entry 255 at least 65024 (R92, R93), and with
`EXPAND` replaced every table (93_implementation_defined.md U7); and a given table entry that keeps these rules reads as
given. That a parameter is held as given points is the model's choice (notes/assumptions/1.md), and so is that a point that
breaks them counts for nothing (notes/assumptions/22.md). -/
def Obligations.EveryReplacementIsAConfiguration : Prop :=
  ∀ cfg : Config,
    (∀ f : Rgb → Rgb16, ∃ l, ∀ c, expandAt { cfg with expand := l } c = f c) ∧
    (∀ f : Rgb → Hd, ∃ l, ∀ c, quantAt { cfg with quant := l } c = f c) ∧
    (∀ f : Half → Nat, ∃ l, ∀ n, endBytesAt { cfg with endBytes := l } n = f n) ∧
    (∀ f : BitVec 5 → Byte, ∃ l, ∀ p, hdHeaderAt { cfg with hdHeader := l } p = f p) ∧
    (∀ f : Byte → Byte, ∃ l, ∀ x, sine8At { cfg with sine8 := l } x = f x) ∧
    (∀ f : Byte → Byte, (∃ l, ∀ x, gamma8At { cfg with gamma8 := l } x = f x) ↔ f 0#8 = 0#8) ∧
    (cfg.expand = [] → ∀ f : Byte → Half,
      (∃ l, ∀ x, gamma16At { cfg with gamma16 := l } x = f x) ↔ f 0#8 = 0#16 ∧ 65024 ≤ (f 255#8).toNat) ∧
    (cfg.expand ≠ [] → ∀ f : Byte → Half, ∃ l, ∀ x, gamma16At { cfg with gamma16 := l } x = f x) ∧
    (∀ x v, cfg.gamma8.lookup x = some v → (x = 0#8 → v = 0#8) → gamma8At cfg x = v) ∧
    (∀ x v, cfg.gamma16.lookup x = some v →
      (cfg.expand = [] → (x = 0#8 → v = 0#16) ∧ (x = 255#8 → 65024 ≤ v.toNat)) → gamma16At cfg x = v)

/-! ### The quantizer -/

/-- R123 whole: the encoding, the HD tuple in the response, nothing written or emitted, brightness not read, and the
rule's example. -/
def Obligations.HdqResponds : Prop :=
  (∀ w : Word, w &&& 0xFFFF000000000000#64 = 0x0800000000000000#64 →
    decode w = .ok (.hdq { r := w.extractLsb' 16 8, g := w.extractLsb' 8 8, b := w.extractLsb' 0 8 })) ∧
  (∀ (c : Rgb) (s : State), ∃ z : Word,
    exec (.hdq c) s = .next { s with rsps := s.rsps ++ [z] } ∧
    z.toNat =
      (quantAt s.cfg c).power.toNat * 2 ^ 24 + (quantAt s.cfg c).r.toNat * 2 ^ 16 +
        (quantAt s.cfg c).g.toNat * 2 ^ 8 + (quantAt s.cfg c).b.toNat ∧
    (s.cfg.quant = [] → expandAt s.cfg c = { r := 1000#16, g := 2000#16, b := 2114#16 } → z = 0x0179F2FF#64))

/-- R119, R122: the level the ladder ends at is a function of the largest expanded channel, with these exact thresholds. -/
def Obligations.LadderLevelByMaximum : Prop :=
  ∀ (c : Rgb16) (m : Nat), m = max c.r.toNat (max c.g.toNat c.b.toNat) →
    (31711 ≤ m → ladder c = { power := 31#5, num := 1, den := 1 }) ∧
    (14799 ≤ m → m ≤ 31710 → ladder c = { power := 15#5, num := 31, den := 15 }) ∧
    (6343 ≤ m → m ≤ 14798 → ladder c = { power := 7#5, num := 465, den := 105 }) ∧
    (2115 ≤ m → m ≤ 6342 → ladder c = { power := 3#5, num := 3255, den := 315 }) ∧
    (m ≤ 2114 → ladder c = { power := 1#5, num := 9765, den := 315 })

/-- R120: the denominator is never 0 and every rescaled channel fits 16 bits. -/
def Obligations.RescaledChannelsFitSixteenBits : Prop :=
  ∀ c : Rgb16, (ladder c).den ≠ 0 ∧
    rescale (ladder c) c.r < 2 ^ 16 ∧ rescale (ladder c) c.g < 2 ^ 16 ∧ rescale (ladder c) c.b < 2 ^ 16

/-- R115, R116, R117: with the default `QUANT`, each mantissa is the high byte of the floor of `channel * num / den` at
the ladder's level, but 255 where that byte is at least 254 and the channel's own input is 255; and the power is the
ladder's. -/
def Obligations.DefaultQuantizerMantissas : Prop :=
  ∀ (cfg : Config) (c : Rgb), cfg.quant = [] →
    ∀ e l, e = expandAt cfg c → l = ladder e →
      (quantAt cfg c).power = l.power ∧
      (quantAt cfg c).r.toNat =
        (if c.r.toNat = 255 ∧ 254 ≤ e.r.toNat * l.num / l.den / 256 then 255 else e.r.toNat * l.num / l.den / 256) ∧
      (quantAt cfg c).g.toNat =
        (if c.g.toNat = 255 ∧ 254 ≤ e.g.toNat * l.num / l.den / 256 then 255 else e.g.toNat * l.num / l.den / 256) ∧
      (quantAt cfg c).b.toNat =
        (if c.b.toNat = 255 ∧ 254 ≤ e.b.toNat * l.num / l.den / 256 then 255 else e.b.toNat * l.num / l.den / 256)

/-- R121: with the default expansion and quantizer, white stays white at power 31 and black ends at power 1, whatever the
table's open entries are. -/
def Obligations.QuantizerFixedPoints : Prop :=
  ∀ s : State, s.cfg.expand = [] → s.cfg.quant = [] →
    exec (.hdq { r := 255#8, g := 255#8, b := 255#8 }) s = .next { s with rsps := s.rsps ++ [0x1FFFFFFF#64] } ∧
    exec (.hdq { r := 0#8, g := 0#8, b := 0#8 }) s = .next { s with rsps := s.rsps ++ [0x01000000#64] }

/-! ### The pixel buffer -/

/-- R131 whole: the draw, the present zeroed buffer of `n` pixels or the absent one, `BRT` and every other field as it
was; a failure shows only in GETPIX answering 0 and SHOW emitting nothing; a present buffer of no pixels is shown as start
and end frame. The drawn bit is the next one the environment names; where it names none it is a free value. -/
def Obligations.SetlenReallocates : Prop :=
  (∀ w : Word, w &&& 0xFFFF000000000000#64 = 0x1000000000000000#64 → decode w = .ok (.setlen (w.extractLsb' 32 16))) ∧
  (∀ (n : Half) (s : State), ∃ ok : Bool, (∀ b rest, s.allocs = b :: rest → ok = b) ∧
    ∃ t : State, exec (.setlen n) s = .next t ∧
      t = { s with valid := t.valid, n := t.n, buf := t.buf, allocs := s.allocs.tail, draws := s.draws + 1,
                   rsps := s.rsps ++ [0#64] } ∧
      (ok = true → t.valid = true ∧ t.n = n ∧ bufBytes t = List.replicate (3 * n.toNat) 0x00#8) ∧
      (ok = false → t.valid = false ∧ t.n = 0#16 ∧ bufBytes t = [] ∧
        (∀ i, exec (.getpix i) t = .next { t with rsps := t.rsps ++ [0#64] }) ∧
        exec .showFrame t = .next { t with rsps := t.rsps ++ [0#64] }) ∧
      (∀ a, Memory.read t.buf a = 0x00#8) ∧
      (ok = true → n = 0#16 → s.transport = .fair → ∃ u, exec .showFrame t = .next u ∧
        u.out = s.out ++ [0x00#8, 0x00#8, 0x00#8, 0x00#8] ++ List.replicate (endBytesAt s.cfg 0#16) 0xFF#8))

/-- R132 whole: in range the three bytes of the pixel are written at its channel addresses and every other byte reads as
before; out of range or with the buffer absent nothing is written; with the rule's example. -/
def Obligations.SetpixWritesThreeBytes : Prop :=
  (∀ w : Word, w &&& 0xFFFF000000000000#64 = 0x1100000000000000#64 →
    decode w =
      .ok (.setpix (w.extractLsb' 32 16) { r := w.extractLsb' 16 8, g := w.extractLsb' 8 8, b := w.extractLsb' 0 8 })) ∧
  (∀ (i : Half) (c : Rgb) (s : State), s.valid = true → i.toNat < s.n.toNat → ∃ m : Memory,
    exec (.setpix i c) s = .next { s with buf := m, rsps := s.rsps ++ [0#64] } ∧
    Memory.read m (3 * i.toNat + chanOffset s.cfg.order .red) = c.r ∧
    Memory.read m (3 * i.toNat + chanOffset s.cfg.order .green) = c.g ∧
    Memory.read m (3 * i.toNat + chanOffset s.cfg.order .blue) = c.b ∧
    (∀ a, a ≠ pixelAddr s.cfg.order i.toNat .red → a ≠ pixelAddr s.cfg.order i.toNat .green →
      a ≠ pixelAddr s.cfg.order i.toNat .blue → Memory.read m a = Memory.read s.buf a)) ∧
  (∀ (i : Half) (c : Rgb) (s : State), ¬ (s.valid = true ∧ i.toNat < s.n.toNat) →
    exec (.setpix i c) s = .next { s with rsps := s.rsps ++ [0#64] }) ∧
  (∀ s : State, s.valid = true → 0 < s.n.toNat → s.cfg.order = .bgr → ∃ t,
    exec (.setpix 0#16 { r := 0x11#8, g := 0x22#8, b := 0x33#8 }) s = .next t ∧
    Memory.read t.buf 0 = 0x33#8 ∧ Memory.read t.buf 1 = 0x22#8 ∧ Memory.read t.buf 2 = 0x11#8)

/-- R133 whole: in range the stored bytes, packed with the top byte 0; else the sentinel 0; no state written; with the
rule's example. -/
def Obligations.GetpixAnswersStoredBytes : Prop :=
  (∀ w : Word, w &&& 0xFFFF000000000000#64 = 0x1200000000000000#64 → decode w = .ok (.getpix (w.extractLsb' 32 16))) ∧
  (∀ (i : Half) (s : State), ∃ z : Word,
    exec (.getpix i) s = .next { s with rsps := s.rsps ++ [z] } ∧ z.toNat < 2 ^ 24 ∧
    (s.valid = true → i.toNat < s.n.toNat →
      z.toNat =
        (Memory.read s.buf (3 * i.toNat + chanOffset s.cfg.order .red)).toNat * 2 ^ 16 +
          (Memory.read s.buf (3 * i.toNat + chanOffset s.cfg.order .green)).toNat * 2 ^ 8 +
          (Memory.read s.buf (3 * i.toNat + chanOffset s.cfg.order .blue)).toNat) ∧
    (¬ (s.valid = true ∧ i.toNat < s.n.toNat) → z = 0#64)) ∧
  (∀ s t : State, s.valid = true → 0 < s.n.toNat → s.cfg.order = .bgr →
    exec (.setpix 0#16 { r := 0x11#8, g := 0x22#8, b := 0x33#8 }) s = .next t →
    exec (.getpix 0#16) t = .next { t with rsps := t.rsps ++ [0x00112233#64] })

/-- R134: with the buffer present every pixel's three bytes hold the colour, no byte outside `BUF` is touched, and
nothing else but the response is written; with it absent nothing is written. -/
def Obligations.FillWritesEveryPixel : Prop :=
  (∀ w : Word, w &&& 0xFFFF000000000000#64 = 0x1300000000000000#64 →
    decode w = .ok (.fill { r := w.extractLsb' 16 8, g := w.extractLsb' 8 8, b := w.extractLsb' 0 8 })) ∧
  (∀ (c : Rgb) (s : State), BlockInv s → s.valid = true → ∃ m : Memory,
    exec (.fill c) s = .next { s with buf := m, rsps := s.rsps ++ [0#64] } ∧
    (∀ i, i < s.n.toNat →
      Memory.read m (pixelAddr s.cfg.order i .red) = c.r ∧ Memory.read m (pixelAddr s.cfg.order i .green) = c.g ∧
      Memory.read m (pixelAddr s.cfg.order i .blue) = c.b) ∧
    (∀ a, bufSize s ≤ a → Memory.read m a = Memory.read s.buf a)) ∧
  (∀ (c : Rgb) (s : State), s.valid = false → exec (.fill c) s = .next { s with rsps := s.rsps ++ [0#64] })

/-- R134: FILL leaves the state that SETPIX of every index from 0 to `N-1`, one after the other, leaves, but for the
number of responses. -/
def Obligations.FillEqualsSetpixOfEveryIndex : Prop :=
  ∀ (c : Rgb) (s : State), BlockInv s → s.valid = true →
    ∃ t u : State, exec (.fill c) s = .next t ∧
      execAll ((List.range s.n.toNat).map (fun i => Instr.setpix (BitVec.ofNat 16 i) c)) s = .next u ∧
      { u with rsps := t.rsps } = t

/-- R135: SETPIX, then any operations but a SETPIX of that pixel, FILL and SETLEN, then GETPIX answers the colour, for
every channel order and brightness. -/
def Obligations.PixelRoundTrip : Prop :=
  ∀ (i : Half) (c : Rgb) (s t u : State) (between : List Instr),
    s.valid = true → i.toNat < s.n.toNat → exec (.setpix i c) s = .next t →
    (∀ k c', Instr.setpix k c' ∈ between → k ≠ i) → (∀ c', Instr.fill c' ∉ between) →
    (∀ n, Instr.setlen n ∉ between) → execAll between t = .next u →
    ∃ z : Word, exec (.getpix i) u = .next { u with rsps := u.rsps ++ [z] } ∧
      z.toNat = c.r.toNat * 2 ^ 16 + c.g.toNat * 2 ^ 8 + c.b.toNat

/-- R136: the bytes a colour stands in, for each of the six channel orders. -/
def Obligations.ChannelOrderPlacesBytes : Prop :=
  ∀ (i : Half) (c : Rgb) (s : State), s.valid = true → i.toNat < s.n.toNat → ∃ t,
    exec (.setpix i c) s = .next t ∧
    [Memory.read t.buf (3 * i.toNat), Memory.read t.buf (3 * i.toNat + 1), Memory.read t.buf (3 * i.toNat + 2)] =
      (match s.cfg.order with
      | .rgb => [c.r, c.g, c.b]
      | .rbg => [c.r, c.b, c.g]
      | .grb => [c.g, c.r, c.b]
      | .gbr => [c.g, c.b, c.r]
      | .brg => [c.b, c.r, c.g]
      | .bgr => [c.b, c.g, c.r])

/-! ### Brightness -/

/-- R137 whole: `BRT` gets `(l + 1) mod 256`, nothing else but the response is written; logical 0 makes every emitted
channel byte 0. -/
def Obligations.SetbrtStores : Prop :=
  (∀ w : Word, w &&& 0xFFFF000000000000#64 = 0x1400000000000000#64 → decode w = .ok (.setbrt (w.extractLsb' 0 8))) ∧
  (∀ (l : Byte) (s : State), ∃ b : Byte,
    exec (.setbrt l) s = .next { s with brt := b, rsps := s.rsps ++ [0#64] } ∧ b.toNat = (l.toNat + 1) % 256 ∧
    (l = 255#8 → b = 0#8) ∧ (l = 0#8 → ∀ v, scale8 v b = 0#8))

/-- R138 whole: the logical value, the inverse of SETBRT's storing; 255 after reset. -/
def Obligations.GetbrtAnswersLogical : Prop :=
  (∀ w : Word, w &&& 0xFFFF000000000000#64 = 0x1500000000000000#64 → decode w = .ok .getbrt) ∧
  (∀ s : State, ∃ z : Word,
    exec .getbrt s = .next { s with rsps := s.rsps ++ [z] } ∧ z.toNat = (s.brt.toNat + 255) % 256) ∧
  (∀ (l : Byte) (s t : State), exec (.setbrt l) s = .next t → ∃ z : Word,
    exec .getbrt t = .next { t with rsps := t.rsps ++ [z] } ∧ z.toNat = l.toNat) ∧
  (∀ (cfg : Config) (ok : Bool),
    exec .getbrt (State.resetWith cfg ok) = .next { State.resetWith cfg ok with rsps := [255#64] })

/-- R139 whole: pass-through at stored 0, else the fixed-point product; by logical value; the source's worked value. -/
def Obligations.ScaleIsFixedPointProduct : Prop :=
  (∀ b : Byte, scale8 b 0#8 = b) ∧
  (∀ b s : Byte, s ≠ 0#8 → (scale8 b s).toNat = b.toNat * s.toNat / 256) ∧
  (∀ b l : Byte, l ≠ 255#8 → (scale8 b (storedOfLogical l)).toNat = b.toNat * (l.toNat + 1) / 256) ∧
  scale8 200#8 (storedOfLogical 128#8) = 100#8

/-- R140: under an active brightness the result is at most 254, below the byte unless that is 0, and the full-scale byte
comes out as the stored value less one. -/
def Obligations.ScaleBounds : Prop :=
  ∀ b s : Byte,
    (scale8 b s).toNat ≤ b.toNat ∧ scale8 0#8 s = 0#8 ∧
    (s ≠ 0#8 → (scale8 b s).toNat ≤ 254 ∧ (b ≠ 0#8 → (scale8 b s).toNat < b.toNat) ∧
      (scale8 255#8 s).toNat = s.toNat - 1)

/-! ### The frame encoder -/

/-- R152 with R165: the sequencer that SHOW starts emits, byte for byte, the start frame, the quads in index order and
the end frame, then drives the response 0, and writes no other state; with the buffer absent it emits nothing. -/
def Obligations.ShowEmitsFrame : Prop :=
  (∀ w : Word, w &&& 0xFFFF000000000000#64 = 0x2000000000000000#64 → decode w = .ok .showFrame) ∧
  (∀ s : State, s.valid = true → s.transport = .fair →
    exec .showFrame s =
      .next { s with
        seq := none
        out :=
          s.out ++ ([0x00#8, 0x00#8, 0x00#8, 0x00#8] ++ (List.range s.n.toNat).flatMap (quad s) ++
            List.replicate (endBytesAt s.cfg s.n) 0xFF#8)
        rsps := s.rsps ++ [0#64] }) ∧
  (∀ s : State, s.valid = false → exec .showFrame s = .next { s with rsps := s.rsps ++ [0#64] })

/-- R165: the rows of the sequencer's table, one `transfer` that returns each. -/
def Obligations.SequencerRows : Prop :=
  ∀ s : State, s.transport = .fair → 0 < endBytes s →
    (∀ k : Fin 4, k.val < 3 → seqStep s (.start k) = { s with out := s.out ++ [0x00#8], seq := some (.start (k + 1)) }) ∧
    seqStep s (.start 3) =
      { s with
        out := s.out ++ [0x00#8]
        seq := if 0 < s.n.toNat then some (.pixel 0 0) else some (.endFrame 0) } ∧
    (∀ (i : Nat) (k : Fin 4), k.val < 3 →
      seqStep s (.pixel i k) =
        { s with out := s.out ++ [(quad s i).getD k.val 0x00#8], seq := some (.pixel i (k + 1)) }) ∧
    (∀ i : Nat,
      seqStep s (.pixel i 3) =
        { s with
          out := s.out ++ [(quad s i).getD 3 0x00#8]
          seq := if i + 1 < s.n.toNat then some (.pixel (i + 1) 0) else some (.endFrame 0) }) ∧
    (∀ j : Nat, j + 1 < endBytes s →
      seqStep s (.endFrame j) = { s with out := s.out ++ [0xFF#8], seq := some (.endFrame (j + 1)) }) ∧
    (∀ j : Nat, ¬ j + 1 < endBytes s →
      seqStep s (.endFrame j) = { s with out := s.out ++ [0xFF#8], seq := none, rsps := s.rsps ++ [0#64] })

/-- R166, R195, U1: with a transport that takes `k` more bytes and never returns from the last of them, a SHOW whose
frame has at least `k` bytes hands over exactly the first `k` of them, drives no response and hangs, its `SEQ` left at the
row of R165 that emitted the `k`-th; a shorter frame completes and leaves the transport with the rest of the bytes.
THE MODEL'S CHOICE (notes/assumptions/15.md): a SHOW is one step with its `SEQ` left in place; and the state with `k = 0`,
reached only from outside, leaves `SEQ` at its first row with nothing handed over. -/
def Obligations.ShowHangsInTransferThatNeverReturns : Prop :=
  ∀ (s : State) (k : Nat), s.valid = true → s.transport = .stuckAfter k →
    (k ≤ frameLength s →
      ∃ q : SeqState,
        exec .showFrame s =
          .next { s with seq := some q, out := s.out ++ (frame s).take k, transport := .stuckAfter 0 } ∧
        seqLegal s q ∧
        (k = 0 → q = .start 0) ∧
        (∀ p : Fin 4, k = p.val + 1 → q = .start p) ∧
        (∀ (i : Nat) (p : Fin 4), i < s.n.toNat → k = 4 + 4 * i + p.val + 1 → q = .pixel i p) ∧
        (∀ j : Nat, j < endBytes s → k = 4 + 4 * s.n.toNat + j + 1 → q = .endFrame j) ∧
        step { s with seq := some q, out := s.out ++ (frame s).take k, transport := .stuckAfter 0 } =
          .fault .transferNeverReturns) ∧
    (frameLength s < k →
      exec .showFrame s =
        .next { s with
          seq := none
          out := s.out ++ frame s
          transport := .stuckAfter (k - frameLength s)
          rsps := s.rsps ++ [0#64] })

/-- R164: whatever the transport does, SHOW writes no architectural state; it appends to `OUT`, drives at most one
response, 0, and where it hangs leaves its `SEQ`; every other field is as it was. -/
def Obligations.ShowWritesNoArchitecturalState : Prop :=
  ∀ s t : State, exec .showFrame s = .next t →
    t.buf = s.buf ∧ t.n = s.n ∧ t.valid = s.valid ∧ t.brt = s.brt ∧
    t = { s with seq := t.seq, out := t.out, rsps := t.rsps, transport := t.transport } ∧
    (t.rsps = s.rsps ∨ t.rsps = s.rsps ++ [0#64]) ∧ ∃ l, t.out = s.out ++ l

/-- R154, R155: in standard mode the frame's bytes 0 to 3 are 0, byte `4 + 4*i` is the marker `0xFF` and byte
`4 + 4*i + 1 + p` is the scaled byte at buffer position `p` of pixel `i`. -/
def Obligations.StandardFrameLayout : Prop :=
  ∀ s : State, s.cfg.hd = false →
    (∀ k, k < 4 → (frame s)[k]? = some 0x00#8) ∧
    (∀ i, i < s.n.toNat →
      (frame s)[4 + 4 * i]? = some 0xFF#8 ∧
      (∀ p, p < 3 → (frame s)[4 + 4 * i + 1 + p]? = some (scale8 (Memory.read s.buf (3 * i + p)) s.brt)))

/-- R157: in HD mode pixel `i` goes out as the header of its power level, then each colour's mantissa at that colour's
buffer position, the quantizer being given the three scaled bytes. -/
def Obligations.HdFrameLayout : Prop :=
  ∀ s : State, s.cfg.hd = true → ∀ i, i < s.n.toNat → ∀ h : Hd,
    h = quantAt s.cfg
      { r := scale8 (Memory.read s.buf (3 * i + chanOffset s.cfg.order .red)) s.brt
        g := scale8 (Memory.read s.buf (3 * i + chanOffset s.cfg.order .green)) s.brt
        b := scale8 (Memory.read s.buf (3 * i + chanOffset s.cfg.order .blue)) s.brt } →
    (frame s)[4 + 4 * i]? = some (hdHeaderAt s.cfg h.power) ∧
    (frame s)[4 + 4 * i + 1 + chanOffset s.cfg.order .red]? = some h.r ∧
    (frame s)[4 + 4 * i + 1 + chanOffset s.cfg.order .green]? = some h.g ∧
    (frame s)[4 + 4 * i + 1 + chanOffset s.cfg.order .blue]? = some h.b

/-- R161, R162: in either mode and at every brightness the frame has `4 + 4*N + END_BYTES(N)` bytes, the last
`END_BYTES(N)` of them `0xFF`; a SHOW with the buffer present emits that many bytes, with it absent none; under the default
`END_BYTES` of R160 (whole in `EndBytesIsExactCeiling`) they are `4 + 4*N + floor((N+30)/16)`. -/
def Obligations.FrameLengthAndEnd : Prop :=
  (∀ s : State,
    (frame s).length = 4 + 4 * s.n.toNat + endBytesAt s.cfg s.n ∧
    (∀ j, j < endBytesAt s.cfg s.n → (frame s)[4 + 4 * s.n.toNat + j]? = some 0xFF#8)) ∧
  (∀ s : State, s.valid = true → s.transport = .fair → ∃ t, exec .showFrame s = .next t ∧
    t.out.length = s.out.length + (4 + 4 * s.n.toNat + endBytesAt s.cfg s.n) ∧
    (s.cfg.endBytes = [] → t.out.length = s.out.length + (4 + 4 * s.n.toNat + (s.n.toNat + 30) / 16))) ∧
  (∀ s : State, s.valid = false → ∃ t, exec .showFrame s = .next t ∧ t.out.length = s.out.length)

/-- R160, R163: the default `END_BYTES(N)` is `floor((N+30)/16)`, the least `e` with `16*e >= N+15`; it is never 0, and
its bits always exceed `ceil((N+1)/2)`. -/
def Obligations.EndBytesIsExactCeiling : Prop :=
  ∀ (cfg : Config) (n : Half), cfg.endBytes = [] →
    endBytesAt cfg n = (n.toNat + 30) / 16 ∧
    16 * endBytesAt cfg n ≥ n.toNat + 15 ∧ (∀ e, 16 * e ≥ n.toNat + 15 → endBytesAt cfg n ≤ e) ∧
    1 ≤ endBytesAt cfg n ∧ 8 * endBytesAt cfg n > (n.toNat + 2) / 2

/-- R66, R157: the default HD header byte is `111` over the power level, and the full power's is the standard marker
(presumed by the spec from general knowledge, D10, notes/assumptions/8.md). -/
def Obligations.DefaultHeaderByte : Prop :=
  ∀ (cfg : Config) (p : BitVec 5), cfg.hdHeader = [] →
    (hdHeaderAt cfg p).toNat = 224 + p.toNat ∧ hdHeaderAt cfg 31#5 = 0xFF#8

/-- R158: under an active brightness no channel given to the quantizer is 255, so its boundary correction cannot fire:
with the default `QUANT` every mantissa is the plain high byte. -/
def Obligations.ScaledPixelsAreNeverCorrected : Prop :=
  ∀ (s : State) (i : Nat), s.brt ≠ 0#8 → s.cfg.quant = [] →
    ∀ c e l, c = scaledPixel s i → e = expandAt s.cfg c → l = ladder e →
      c.r ≠ 255#8 ∧ c.g ≠ 255#8 ∧ c.b ≠ 255#8 ∧
      (quantAt s.cfg c).r.toNat = e.r.toNat * l.num / l.den / 256 ∧
      (quantAt s.cfg c).g.toNat = e.g.toNat * l.num / l.den / 256 ∧
      (quantAt s.cfg c).b.toNat = e.b.toNat * l.num / l.den / 256

/-- R152, R164: two SHOWs with no write between them emit the same frame twice. -/
def Obligations.RepeatedShowEmitsSameFrame : Prop :=
  ∀ s : State, s.valid = true → s.transport = .fair →
    ∃ t, execAll [.showFrame, .showFrame] s = .next t ∧ t.out = s.out ++ frame s ++ frame s ∧
      t.rsps = s.rsps ++ [0#64, 0#64]

/-! ### The ancillary functions -/

/-- R185: the encoding and the response, one entry of the open table. -/
def Obligations.Sine8Responds : Prop :=
  (∀ w : Word, w &&& 0xFFFF000000000000#64 = 0x0500000000000000#64 → decode w = .ok (.sine8 (w.extractLsb' 0 8))) ∧
  (∀ (x : Byte) (s : State), ∃ z : Word,
    exec (.sine8 x) s = .next { s with rsps := s.rsps ++ [z] } ∧ z.toNat = (sine8At s.cfg x).toNat)

/-- R181: the hexcone index of a hue, its range, and the rule's values. -/
def Obligations.HueIndexRange : Prop :=
  (∀ hue : Half, hueIndex hue = (hue.toNat * 1530 + 32768) / 65536 ∧ hueIndex hue ≤ 1530) ∧
  (∀ hue : Half, hue.toNat ≤ 21 → hueIndex hue = 0) ∧ hueIndex 22#16 = 1 ∧ hueIndex 65514#16 = 1529 ∧
  (∀ hue : Half, 65515 ≤ hue.toNat → hueIndex hue = 1530)

/-- R183, R184: HSV answers the high bytes of `t(c) = (((c * s1) >> 8) + s2) * v1` of the three hexcone channels, packed,
with `s1 = sat+1`, `s2 = 255-sat`, `v1 = val+1`; with the corner cases `sat = 0` (a grey of level `val`), `val = 0` (black),
`sat = val = 255` (the hexcone colour itself); and the anchors of R186: red at hue 0, green at 21845, blue at 43690, red
again at 65535. The hexcone's channel table, whose rows `HsvWidths` states, is presumed by the spec from general knowledge
(D27, notes/assumptions/9.md); the clauses hold of it. -/
def Obligations.HsvResponds : Prop :=
  (∀ w : Word, w &&& 0xFFFF000000000000#64 = 0x0600000000000000#64 →
    decode w = .ok (.hsv (w.extractLsb' 32 16) (w.extractLsb' 8 8) (w.extractLsb' 0 8))) ∧
  (∀ (hue : Half) (sat val : Byte) (s : State), ∃ z : Word,
    exec (.hsv hue sat val) s = .next { s with rsps := s.rsps ++ [z] } ∧
    (∀ r g b, (r, g, b) = hexcone ((hue.toNat * 1530 + 32768) / 65536) →
      (∀ t : Nat → Nat, (∀ c, t c = (c * (sat.toNat + 1) / 256 + (255 - sat.toNat)) * (val.toNat + 1)) →
        z.toNat = t r / 256 * 2 ^ 16 + t g / 256 * 2 ^ 8 + t b / 256) ∧
      (sat = 0#8 → z.toNat = val.toNat * 2 ^ 16 + val.toNat * 2 ^ 8 + val.toNat) ∧
      (val = 0#8 → z = 0#64) ∧
      (sat = 255#8 → val = 255#8 → z.toNat = r * 2 ^ 16 + g * 2 ^ 8 + b))) ∧
  (∀ s : State,
    exec (.hsv 0#16 255#8 255#8) s = .next { s with rsps := s.rsps ++ [0x00FF0000#64] } ∧
    exec (.hsv 21845#16 255#8 255#8) s = .next { s with rsps := s.rsps ++ [0x0000FF00#64] } ∧
    exec (.hsv 43690#16 255#8 255#8) s = .next { s with rsps := s.rsps ++ [0x000000FF#64] } ∧
    exec (.hsv 65535#16 255#8 255#8) s = .next { s with rsps := s.rsps ++ [0x00FF0000#64] })

/-- R182, R183: the seven rows of the hexcone's channel table, which the spec presumes from general knowledge (D27,
notes/assumptions/9.md); every hexcone channel is at most 255 with one of them 255 and one of them 0; and
`t(c) = (((c * s1) >> 8) + s2) * v1` fits 16 bits for every channel byte, so its high byte is the whole of what lies above
bit 7. -/
def Obligations.HsvWidths : Prop :=
  (∀ h : Nat,
    (h ≤ 254 → hexcone h = (255, h, 0)) ∧
    (255 ≤ h → h ≤ 509 → hexcone h = (510 - h, 255, 0)) ∧
    (510 ≤ h → h ≤ 764 → hexcone h = (0, 255, h - 510)) ∧
    (765 ≤ h → h ≤ 1019 → hexcone h = (0, 1020 - h, 255)) ∧
    (1020 ≤ h → h ≤ 1274 → hexcone h = (h - 1020, 0, 255)) ∧
    (1275 ≤ h → h ≤ 1529 → hexcone h = (255, 0, 1530 - h)) ∧
    (h = 1530 → hexcone h = (255, 0, 0))) ∧
  (∀ h r g b, (r, g, b) = hexcone h → r ≤ 255 ∧ g ≤ 255 ∧ b ≤ 255 ∧ (r = 255 ∨ g = 255 ∨ b = 255) ∧
    (r = 0 ∨ g = 0 ∨ b = 0)) ∧
  (∀ (sat val : Byte) (c : Nat), c ≤ 255 →
    satVal sat val c = (c * (sat.toNat + 1) / 256 + (255 - sat.toNat)) * (val.toNat + 1) ∧ satVal sat val c ≤ 65280)
end

