-- ==== Sys2Proof/Laws/Memory.lean ====
section
/-! SUPPORT. The laws of the pixel buffer's bytes: read after write, the canonical form, equality by what is read. -/

namespace Sys2Proof.Machine

@[simp] theorem Memory.read_nil (a : Nat) : Memory.read [] a = Memory.unlisted := rfl

theorem Memory.read_cons (c : Host.Cell) (m : Memory) (a : Nat) :
    Memory.read (c :: m) a = if c.1 = a then c.2 else Memory.read m a := rfl

/-- An address no entry has reads as unlisted. -/
theorem Memory.read_of_not_listed {m : Memory} {a : Nat} (h : ∀ c ∈ m, c.1 ≠ a) :
    Memory.read m a = Memory.unlisted := by
  induction m with
  | nil => rfl
  | cons c m ih =>
    rw [Memory.read_cons, if_neg (h c List.mem_cons_self)]
    exact ih fun e he => h e (List.mem_cons_of_mem _ he)

/-- An entry of a canonical memory is what its address reads as. -/
theorem Memory.read_of_mem {m : Memory} (h : Memory.wf m) {c : Host.Cell} (hc : c ∈ m) : Memory.read m c.1 = c.2 := by
  induction m with
  | nil => cases hc
  | cons e m ih =>
    obtain ⟨hp, hv⟩ := h
    rw [List.pairwise_cons] at hp
    rcases List.mem_cons.1 hc with rfl | hc
    · simp [Memory.read_cons]
    · have : e.1 ≠ c.1 := Nat.ne_of_lt (hp.1 c hc)
      rw [Memory.read_cons, if_neg this]
      exact ih ⟨hp.2, fun x hx => hv x (List.mem_cons_of_mem _ hx)⟩ hc

theorem Memory.read_filter_ne (m : Memory) {a b : Nat} (h : b ≠ a) :
    Memory.read (m.filter (fun c => c.1 != a)) b = Memory.read m b := by
  induction m with
  | nil => rfl
  | cons c m ih =>
    by_cases hc : c.1 = a
    · have : c.1 ≠ b := fun hb => h (hb ▸ hc)
      simp [hc, ih, Memory.read_cons, Ne.symm h]
    · simp [hc, ih, Memory.read_cons]

theorem Memory.read_insertCell (m : Memory) (a b : Nat) (v : Byte) (h : ∀ c ∈ m, c.1 ≠ a) :
    Memory.read (Memory.insertCell m a v) b = if b = a then v else Memory.read m b := by
  induction m with
  | nil =>
    by_cases hb : b = a
    · simp [Memory.insertCell, Memory.read_cons, hb]
    · simp [Memory.insertCell, Memory.read_cons, hb, Ne.symm hb]
  | cons c m ih =>
    have hc := h c List.mem_cons_self
    have ih := ih fun e he => h e (List.mem_cons_of_mem _ he)
    unfold Memory.insertCell
    split
    · simp only [Memory.read_cons, eq_comm]
    · rw [Memory.read_cons, ih, Memory.read_cons]
      by_cases hb : b = a
      · simp [hb, hc]
      · simp [hb]

/-- Read after write: the address written reads the value, every other address as before. -/
theorem Memory.read_write (m : Memory) (a b : Nat) (v : Byte) :
    Memory.read (Memory.write m a v) b = if b = a then v else Memory.read m b := by
  have hf : ∀ c ∈ m.filter (fun c => c.1 != a), c.1 ≠ a := by
    intro c hc
    simpa using (List.mem_filter.1 hc).2
  unfold Memory.write
  split
  · next hv =>
    by_cases hb : b = a
    · rw [hb, Memory.read_of_not_listed hf]; simp [hv]
    · rw [Memory.read_filter_ne m hb, if_neg hb]
  · rw [Memory.read_insertCell _ _ _ _ hf]
    by_cases hb : b = a
    · simp [hb]
    · simp [hb, Memory.read_filter_ne m hb]

theorem Memory.mem_insertCell {m : Memory} {a : Nat} {v : Byte} {c : Host.Cell} :
    c ∈ Memory.insertCell m a v ↔ c = (a, v) ∨ c ∈ m := by
  induction m with
  | nil => simp [Memory.insertCell]
  | cons e m ih =>
    unfold Memory.insertCell
    split
    · simp
    · simp only [List.mem_cons, ih]
      tauto

/-- What a write lists: the new entry and entries listed before. -/
theorem Memory.mem_write {m : Memory} {a : Nat} {v : Byte} {c : Host.Cell} (h : c ∈ Memory.write m a v) :
    c = (a, v) ∨ c ∈ m := by
  unfold Memory.write at h
  split at h
  · exact .inr (List.mem_filter.1 h).1
  · rcases Memory.mem_insertCell.1 h with h | h
    · exact .inl h
    · exact .inr (List.mem_filter.1 h).1

/-- A write keeps the canonical form. -/
theorem Memory.write_wf {m : Memory} (h : Memory.wf m) (a : Nat) (v : Byte) : Memory.wf (Memory.write m a v) := by
  have hf : Memory.wf (m.filter (fun c => c.1 != a)) :=
    ⟨h.1.sublist List.filter_sublist, fun c hc => h.2 c (List.mem_filter.1 hc).1⟩
  have hne : ∀ c ∈ m.filter (fun c => c.1 != a), c.1 ≠ a := by
    intro c hc
    simpa using (List.mem_filter.1 hc).2
  unfold Memory.write
  split
  · exact hf
  · next hv =>
    refine ⟨?_, fun c hc => ?_⟩
    · generalize m.filter (fun c => c.1 != a) = l at hf hne
      obtain ⟨hp, -⟩ := hf
      induction l with
      | nil => simp [Memory.insertCell]
      | cons c l ih =>
        rw [List.pairwise_cons] at hp
        unfold Memory.insertCell
        split
        · next hlt =>
          rw [List.pairwise_cons]
          refine ⟨fun e he => ?_, List.pairwise_cons.2 hp⟩
          rcases List.mem_cons.1 he with rfl | he
          · exact hlt
          · exact Nat.lt_trans hlt (hp.1 e he)
        · next hlt =>
          rw [List.pairwise_cons]
          refine ⟨fun e he => ?_, ih (fun e he => hne e (List.mem_cons_of_mem _ he)) hp.2⟩
          rcases Memory.mem_insertCell.1 he with rfl | he
          · have := hne c List.mem_cons_self
            simp only
            omega
          · exact hp.1 e he
    · rcases Memory.mem_insertCell.1 hc with rfl | hc
      · exact hv
      · exact hf.2 c hc

/-- A tabulated memory reads the function below its length and unlisted above. -/
theorem Memory.read_tabulate (len : Nat) (f : Nat → Byte) (a : Nat) :
    Memory.read (Memory.tabulate len f) a = if a < len then f a else Memory.unlisted := by
  have key : ∀ l : List Nat, Memory.read
      (l.filterMap (fun k => if f k = Memory.unlisted then none else some (k, f k))) a =
        if a ∈ l then f a else Memory.unlisted := by
    intro l
    induction l with
    | nil => simp
    | cons k l ih =>
      by_cases hk : f k = Memory.unlisted
      · rw [List.filterMap_cons_none (by simp [hk]), ih]
        by_cases ha : a = k
        · subst ha; simp [hk]
        · simp [ha]
      · rw [List.filterMap_cons_some (b := (k, f k)) (by simp [hk]), Memory.read_cons, ih]
        by_cases ha : k = a
        · subst ha; simp
        · simp [ha, Ne.symm ha]
  simpa [Memory.tabulate] using key (List.range len)

theorem Memory.mem_tabulate {len : Nat} {f : Nat → Byte} {c : Host.Cell} (h : c ∈ Memory.tabulate len f) :
    c.1 < len ∧ c.2 = f c.1 ∧ c.2 ≠ Memory.unlisted := by
  obtain ⟨k, hk, he⟩ := List.mem_filterMap.1 h
  split at he
  · cases he
  · next hv =>
    cases he
    exact ⟨List.mem_range.1 hk, rfl, hv⟩

/-- A tabulated memory is in canonical form. -/
theorem Memory.tabulate_wf (len : Nat) (f : Nat → Byte) : Memory.wf (Memory.tabulate len f) := by
  refine ⟨?_, fun c hc => (Memory.mem_tabulate hc).2.2⟩
  refine List.Pairwise.filterMap _ ?_ List.pairwise_lt_range
  intro a b hab c hc e he
  split at hc <;> split at he <;> cases hc <;> cases he
  exact hab

/-- Two canonical memories that read alike at every address are the same data. -/
theorem Memory.ext_of_read : ∀ {m k : Memory}, Memory.wf m → Memory.wf k →
    (∀ a, Memory.read m a = Memory.read k a) → m = k
  | [], [], _, _, _ => rfl
  | [], e :: k, _, hk, h => absurd (h e.1) (by
      rw [Memory.read_of_mem hk List.mem_cons_self]
      exact Ne.symm (hk.2 e List.mem_cons_self))
  | c :: m, [], hm, _, h => absurd (h c.1) (by
      rw [Memory.read_of_mem hm List.mem_cons_self]
      exact hm.2 c List.mem_cons_self)
  | c :: m, e :: k, hm, hk, h => by
    have hpm := List.pairwise_cons.1 hm.1
    have hpk := List.pairwise_cons.1 hk.1
    have below : ∀ {x : Host.Cell} {l : Memory} {a : Nat}, (∀ y ∈ l, x.1 < y.1) → a < x.1 →
        Memory.read (x :: l) a = Memory.unlisted := by
      intro x l a hl ha
      refine Memory.read_of_not_listed fun y hy => ?_
      rcases List.mem_cons.1 hy with rfl | hy
      · omega
      · have := hl y hy; omega
    have hce : c.1 = e.1 := by
      rcases Nat.lt_trichotomy c.1 e.1 with hlt | heq | hgt
      · have := h c.1
        rw [Memory.read_of_mem hm List.mem_cons_self, below hpk.1 hlt] at this
        exact absurd this (hm.2 c List.mem_cons_self)
      · exact heq
      · have := h e.1
        rw [Memory.read_of_mem hk List.mem_cons_self, below hpm.1 hgt] at this
        exact absurd this.symm (hk.2 e List.mem_cons_self)
    have hv : c.2 = e.2 := by
      have := h c.1
      rwa [Memory.read_of_mem hm List.mem_cons_self, hce, Memory.read_of_mem hk List.mem_cons_self] at this
    have htail : m = k := by
      refine Memory.ext_of_read ⟨hpm.2, fun x hx => hm.2 x (List.mem_cons_of_mem _ hx)⟩
        ⟨hpk.2, fun x hx => hk.2 x (List.mem_cons_of_mem _ hx)⟩ fun a => ?_
      by_cases ha : c.1 = a
      · rw [Memory.read_of_not_listed, Memory.read_of_not_listed]
        · intro y hy; have := hpk.1 y hy; omega
        · intro y hy; have := hpm.1 y hy; omega
      · have := h a
        rwa [Memory.read_cons, if_neg ha, Memory.read_cons, if_neg (hce ▸ ha)] at this
    rw [htail, Prod.ext hce hv]

end Sys2Proof.Machine
end

