-- ==== Sys2Proof/Laws/State.lean ====
section
/-! SUPPORT. One lemma per field for each named update of the state, true by rfl, so that no proof unfolds one. -/

namespace Sys2Proof.Machine

@[simp] theorem respond_cfg (s : State) (w : Word) : (respond s w).cfg = s.cfg := rfl
@[simp] theorem respond_buf (s : State) (w : Word) : (respond s w).buf = s.buf := rfl
@[simp] theorem respond_n (s : State) (w : Word) : (respond s w).n = s.n := rfl
@[simp] theorem respond_valid (s : State) (w : Word) : (respond s w).valid = s.valid := rfl
@[simp] theorem respond_brt (s : State) (w : Word) : (respond s w).brt = s.brt := rfl
@[simp] theorem respond_seq (s : State) (w : Word) : (respond s w).seq = s.seq := rfl
@[simp] theorem respond_out (s : State) (w : Word) : (respond s w).out = s.out := rfl
@[simp] theorem respond_rsps (s : State) (w : Word) : (respond s w).rsps = s.rsps ++ [w] := rfl
@[simp] theorem respond_cmds (s : State) (w : Word) : (respond s w).cmds = s.cmds := rfl
@[simp] theorem respond_allocs (s : State) (w : Word) : (respond s w).allocs = s.allocs := rfl
@[simp] theorem respond_draws (s : State) (w : Word) : (respond s w).draws = s.draws := rfl
@[simp] theorem respond_transport (s : State) (w : Word) : (respond s w).transport = s.transport := rfl

@[simp] theorem emit_cfg (s : State) (b : Byte) : (emit s b).cfg = s.cfg := rfl
@[simp] theorem emit_buf (s : State) (b : Byte) : (emit s b).buf = s.buf := rfl
@[simp] theorem emit_n (s : State) (b : Byte) : (emit s b).n = s.n := rfl
@[simp] theorem emit_valid (s : State) (b : Byte) : (emit s b).valid = s.valid := rfl
@[simp] theorem emit_brt (s : State) (b : Byte) : (emit s b).brt = s.brt := rfl
@[simp] theorem emit_seq (s : State) (b : Byte) : (emit s b).seq = s.seq := rfl
@[simp] theorem emit_out (s : State) (b : Byte) : (emit s b).out = s.out ++ [b] := rfl
@[simp] theorem emit_rsps (s : State) (b : Byte) : (emit s b).rsps = s.rsps := rfl
@[simp] theorem emit_cmds (s : State) (b : Byte) : (emit s b).cmds = s.cmds := rfl
@[simp] theorem emit_allocs (s : State) (b : Byte) : (emit s b).allocs = s.allocs := rfl
@[simp] theorem emit_draws (s : State) (b : Byte) : (emit s b).draws = s.draws := rfl
@[simp] theorem emit_transport (s : State) (b : Byte) : (emit s b).transport = s.transport := rfl

@[simp] theorem afterDraw_cfg (s : State) : (afterDraw s).cfg = s.cfg := rfl
@[simp] theorem afterDraw_buf (s : State) : (afterDraw s).buf = s.buf := rfl
@[simp] theorem afterDraw_n (s : State) : (afterDraw s).n = s.n := rfl
@[simp] theorem afterDraw_valid (s : State) : (afterDraw s).valid = s.valid := rfl
@[simp] theorem afterDraw_brt (s : State) : (afterDraw s).brt = s.brt := rfl
@[simp] theorem afterDraw_seq (s : State) : (afterDraw s).seq = s.seq := rfl
@[simp] theorem afterDraw_out (s : State) : (afterDraw s).out = s.out := rfl
@[simp] theorem afterDraw_rsps (s : State) : (afterDraw s).rsps = s.rsps := rfl
@[simp] theorem afterDraw_cmds (s : State) : (afterDraw s).cmds = s.cmds := rfl
@[simp] theorem afterDraw_allocs (s : State) : (afterDraw s).allocs = s.allocs.tail := rfl
@[simp] theorem afterDraw_draws (s : State) : (afterDraw s).draws = s.draws + 1 := rfl
@[simp] theorem afterDraw_transport (s : State) : (afterDraw s).transport = s.transport := rfl

@[simp] theorem allocate_cfg (s : State) (ok : Bool) (n : Half) : (allocate s ok n).cfg = s.cfg := rfl
@[simp] theorem allocate_buf (s : State) (ok : Bool) (n : Half) : (allocate s ok n).buf = [] := rfl
@[simp] theorem allocate_n (s : State) (ok : Bool) (n : Half) : (allocate s ok n).n = if ok then n else 0#16 := rfl
@[simp] theorem allocate_valid (s : State) (ok : Bool) (n : Half) : (allocate s ok n).valid = ok := rfl
@[simp] theorem allocate_brt (s : State) (ok : Bool) (n : Half) : (allocate s ok n).brt = s.brt := rfl
@[simp] theorem allocate_seq (s : State) (ok : Bool) (n : Half) : (allocate s ok n).seq = s.seq := rfl
@[simp] theorem allocate_out (s : State) (ok : Bool) (n : Half) : (allocate s ok n).out = s.out := rfl
@[simp] theorem allocate_rsps (s : State) (ok : Bool) (n : Half) : (allocate s ok n).rsps = s.rsps := rfl
@[simp] theorem allocate_cmds (s : State) (ok : Bool) (n : Half) : (allocate s ok n).cmds = s.cmds := rfl
@[simp] theorem allocate_allocs (s : State) (ok : Bool) (n : Half) : (allocate s ok n).allocs = s.allocs := rfl
@[simp] theorem allocate_draws (s : State) (ok : Bool) (n : Half) : (allocate s ok n).draws = s.draws := rfl
@[simp] theorem allocate_transport (s : State) (ok : Bool) (n : Half) : (allocate s ok n).transport = s.transport := rfl

@[simp] theorem writePixel_cfg (s : State) (i : Nat) (c : Rgb) : (writePixel s i c).cfg = s.cfg := rfl
@[simp] theorem writePixel_buf (s : State) (i : Nat) (c : Rgb) : (writePixel s i c).buf = Memory.write (Memory.write (Memory.write s.buf (pixelAddr s.cfg.order i .red) c.r)
      (pixelAddr s.cfg.order i .green) c.g) (pixelAddr s.cfg.order i .blue) c.b := rfl
@[simp] theorem writePixel_n (s : State) (i : Nat) (c : Rgb) : (writePixel s i c).n = s.n := rfl
@[simp] theorem writePixel_valid (s : State) (i : Nat) (c : Rgb) : (writePixel s i c).valid = s.valid := rfl
@[simp] theorem writePixel_brt (s : State) (i : Nat) (c : Rgb) : (writePixel s i c).brt = s.brt := rfl
@[simp] theorem writePixel_seq (s : State) (i : Nat) (c : Rgb) : (writePixel s i c).seq = s.seq := rfl
@[simp] theorem writePixel_out (s : State) (i : Nat) (c : Rgb) : (writePixel s i c).out = s.out := rfl
@[simp] theorem writePixel_rsps (s : State) (i : Nat) (c : Rgb) : (writePixel s i c).rsps = s.rsps := rfl
@[simp] theorem writePixel_cmds (s : State) (i : Nat) (c : Rgb) : (writePixel s i c).cmds = s.cmds := rfl
@[simp] theorem writePixel_allocs (s : State) (i : Nat) (c : Rgb) : (writePixel s i c).allocs = s.allocs := rfl
@[simp] theorem writePixel_draws (s : State) (i : Nat) (c : Rgb) : (writePixel s i c).draws = s.draws := rfl
@[simp] theorem writePixel_transport (s : State) (i : Nat) (c : Rgb) : (writePixel s i c).transport = s.transport := rfl

@[simp] theorem fillPixels_cfg (s : State) (c : Rgb) : (fillPixels s c).cfg = s.cfg := rfl
@[simp] theorem fillPixels_buf (s : State) (c : Rgb) : (fillPixels s c).buf = Memory.tabulate (bufSize s) (fun a => byteAtPosition s.cfg.order c (a % 3)) := rfl
@[simp] theorem fillPixels_n (s : State) (c : Rgb) : (fillPixels s c).n = s.n := rfl
@[simp] theorem fillPixels_valid (s : State) (c : Rgb) : (fillPixels s c).valid = s.valid := rfl
@[simp] theorem fillPixels_brt (s : State) (c : Rgb) : (fillPixels s c).brt = s.brt := rfl
@[simp] theorem fillPixels_seq (s : State) (c : Rgb) : (fillPixels s c).seq = s.seq := rfl
@[simp] theorem fillPixels_out (s : State) (c : Rgb) : (fillPixels s c).out = s.out := rfl
@[simp] theorem fillPixels_rsps (s : State) (c : Rgb) : (fillPixels s c).rsps = s.rsps := rfl
@[simp] theorem fillPixels_cmds (s : State) (c : Rgb) : (fillPixels s c).cmds = s.cmds := rfl
@[simp] theorem fillPixels_allocs (s : State) (c : Rgb) : (fillPixels s c).allocs = s.allocs := rfl
@[simp] theorem fillPixels_draws (s : State) (c : Rgb) : (fillPixels s c).draws = s.draws := rfl
@[simp] theorem fillPixels_transport (s : State) (c : Rgb) : (fillPixels s c).transport = s.transport := rfl

end Sys2Proof.Machine
end

