-- ==== Sys2Proof/Laws/Ops.lean ====
section
/-! SUPPORT. What the shared operations do, once each: the pixel writes, the draw, the packing of results. -/

namespace Sys2Proof.Machine

/-- The three offsets of a channel order are a permutation of {0,1,2} (R42). -/
theorem chanOffset_perm (o : Order) :
    chanOffset o .red < 3 ∧ chanOffset o .green < 3 ∧ chanOffset o .blue < 3 ∧
    chanOffset o .red ≠ chanOffset o .green ∧ chanOffset o .red ≠ chanOffset o .blue ∧
    chanOffset o .green ≠ chanOffset o .blue := by
  cases o <;> decide

@[simp] theorem byteAtPosition_red (o : Order) (c : Rgb) : byteAtPosition o c (chanOffset o .red) = c.r := by
  simp [byteAtPosition]

@[simp] theorem byteAtPosition_green (o : Order) (c : Rgb) : byteAtPosition o c (chanOffset o .green) = c.g := by
  have := chanOffset_perm o
  simp [byteAtPosition, this.2.2.2.1.symm]

@[simp] theorem byteAtPosition_blue (o : Order) (c : Rgb) : byteAtPosition o c (chanOffset o .blue) = c.b := by
  have := chanOffset_perm o
  simp [byteAtPosition, this.2.2.2.2.1.symm, this.2.2.2.2.2.symm]

/-- Every byte after a pixel is written: its three addresses hold the colour, in position order; every other as before. -/
theorem read_writePixel (s : State) (i : Nat) (c : Rgb) (a : Nat) :
    Memory.read (writePixel s i c).buf a =
      if a / 3 = i then byteAtPosition s.cfg.order c (a % 3) else Memory.read s.buf a := by
  obtain ⟨hr, hg, hb, hrg, hrb, hgb⟩ := chanOffset_perm s.cfg.order
  have hdiv : a / 3 = i ↔ 3 * i ≤ a ∧ a < 3 * i + 3 := by omega
  simp only [writePixel_buf, Memory.read_write, pixelAddr, byteAtPosition]
  by_cases h : a / 3 = i
  · have hp := hdiv.1 h
    have hm : a % 3 = a - 3 * i := by omega
    rw [if_pos h, hm]
    by_cases h1 : a = 3 * i + chanOffset s.cfg.order .red
    · have : a - 3 * i = chanOffset s.cfg.order .red := by omega
      rw [if_pos this]
      have h2 : a ≠ 3 * i + chanOffset s.cfg.order .blue := by omega
      have h3 : a ≠ 3 * i + chanOffset s.cfg.order .green := by omega
      simp [h1, hrb, hrg]
    · have : a - 3 * i ≠ chanOffset s.cfg.order .red := by omega
      rw [if_neg this]
      by_cases h2 : a = 3 * i + chanOffset s.cfg.order .green
      · have : a - 3 * i = chanOffset s.cfg.order .green := by omega
        rw [if_pos this]
        simp [h2, hgb]
      · have : a - 3 * i ≠ chanOffset s.cfg.order .green := by omega
        rw [if_neg this]
        have : a = 3 * i + chanOffset s.cfg.order .blue := by omega
        simp [this]
  · have h1 : a ≠ 3 * i + chanOffset s.cfg.order .blue := by omega
    have h2 : a ≠ 3 * i + chanOffset s.cfg.order .green := by omega
    have h3 : a ≠ 3 * i + chanOffset s.cfg.order .red := by omega
    rw [if_neg h, if_neg h1, if_neg h2, if_neg h3]

/-- Writing a pixel keeps the canonical form. -/
theorem writePixel_wf {s : State} (h : Memory.wf s.buf) (i : Nat) (c : Rgb) : Memory.wf (writePixel s i c).buf :=
  Memory.write_wf (Memory.write_wf (Memory.write_wf h _ _) _ _) _ _

/-- What the buffer lists after a pixel is written: entries listed before, and bytes of that pixel. -/
theorem mem_writePixel {s : State} {i : Nat} {c : Rgb} {e : Host.Cell} (h : e ∈ (writePixel s i c).buf) :
    e ∈ s.buf ∨ (3 * i ≤ e.1 ∧ e.1 < 3 * i + 3) := by
  obtain ⟨hr, hg, hb, -⟩ := chanOffset_perm s.cfg.order
  rcases Memory.mem_write h with rfl | h
  · exact .inr ⟨by simp [pixelAddr], by simp [pixelAddr, hb]⟩
  · rcases Memory.mem_write h with rfl | h
    · exact .inr ⟨by simp [pixelAddr], by simp [pixelAddr, hg]⟩
    · rcases Memory.mem_write h with rfl | h
      · exact .inr ⟨by simp [pixelAddr], by simp [pixelAddr, hr]⟩
      · exact .inl h

/-- Every byte after a fill: those of `BUF` hold the colour, in position order; there is no other. -/
theorem read_fillPixels (s : State) (c : Rgb) (a : Nat) :
    Memory.read (fillPixels s c).buf a =
      if a < bufSize s then byteAtPosition s.cfg.order c (a % 3) else Memory.unlisted := by
  rw [fillPixels_buf, Memory.read_tabulate]

/-- A fill leaves a canonical buffer that lists only addresses of `BUF`. -/
theorem fillPixels_wf (s : State) (c : Rgb) :
    Memory.wf (fillPixels s c).buf ∧ ∀ e ∈ (fillPixels s c).buf, e.1 < bufSize s :=
  ⟨Memory.tabulate_wf _ _, fun _ he => (Memory.mem_tabulate he).1⟩

/-- Beyond the listed addresses a buffer reads as unlisted. -/
theorem read_beyond {s : State} (h : ∀ c ∈ s.buf, c.1 < bufSize s) {a : Nat} (ha : bufSize s ≤ a) :
    Memory.read s.buf a = Memory.unlisted :=
  Memory.read_of_not_listed fun c hc => by have := h c hc; omega

/-- The draw takes the environment's next bit where it names one. -/
@[simp] theorem allocOk_named {s : State} {b : Bool} {rest : List Bool} (h : s.allocs = b :: rest) :
    allocOk s = b := by
  simp [allocOk, h]

/-- A pixel index is in range exactly when the buffer is present and the index is below `N` (R46). -/
theorem inRange_iff (s : State) (i : Half) : inRange s i = true ↔ s.valid = true ∧ i.toNat < s.n.toNat := by
  simp [inRange]

/-! ### Results as numbers -/

/-- Concatenation as a number: the left part above the right one (R9). -/
theorem toNat_append_add {n m : Nat} (x : BitVec n) (y : BitVec m) : (x ++ y).toNat = x.toNat * 2 ^ m + y.toNat := by
  rw [BitVec.toNat_append, ← Nat.shiftLeft_add_eq_or_of_lt y.isLt, Nat.shiftLeft_eq]

@[simp] theorem toNat_rspByte (b : Byte) : (rspByte b).toNat = b.toNat := by
  simp only [rspByte, BitVec.toNat_setWidth]; omega

@[simp] theorem toNat_rspHalf (h : Half) : (rspHalf h).toNat = h.toNat := by
  simp only [rspHalf, BitVec.toNat_setWidth]; omega

@[simp] theorem toNat_rspPacked (p : Packed) : (rspPacked p).toNat = p.toNat := by
  simp only [rspPacked, BitVec.toNat_setWidth]; omega

/-- A packed colour as a number (R61). -/
theorem toNat_packRgb (c : Rgb) : (packRgb c).toNat = c.r.toNat * 2 ^ 16 + c.g.toNat * 2 ^ 8 + c.b.toNat := by
  simp only [packRgb, toNat_append_add, BitVec.toNat_ofNat]
  omega

/-- The HDQ response as a number (R63). -/
theorem toNat_rspHd (h : Hd) :
    (rspHd h).toNat = h.power.toNat * 2 ^ 24 + h.r.toNat * 2 ^ 16 + h.g.toNat * 2 ^ 8 + h.b.toNat := by
  simp only [rspHd, BitVec.toNat_setWidth, toNat_append_add]
  omega

/-- The EXPAND response as a number (R69). -/
theorem toNat_rspRgb16 (c : Rgb16) : (rspRgb16 c).toNat = c.r.toNat * 2 ^ 32 + c.g.toNat * 2 ^ 16 + c.b.toNat := by
  simp only [rspRgb16, BitVec.toNat_setWidth, toNat_append_add]
  omega

/-- The four lanes of GAMMA32 as a number (R96). -/
theorem toNat_gamma32Of (cfg : Config) (c : Packed) :
    (gamma32Of cfg c).toNat =
      (gamma8At cfg (c.extractLsb' 24 8)).toNat * 2 ^ 24 + (gamma8At cfg (c.extractLsb' 16 8)).toNat * 2 ^ 16 +
        (gamma8At cfg (c.extractLsb' 8 8)).toNat * 2 ^ 8 + (gamma8At cfg (c.extractLsb' 0 8)).toNat := by
  simp only [gamma32Of, toNat_append_add]
  omega

/-- A given point of a parameter, and the base where no point is given. -/
theorem paramAt_of_lookup {α β : Type} [BEq α] {points : List (α × β)} {base : α → β} {x : α} {y : β}
    (h : points.lookup x = some y) : paramAt points base x = y := by
  simp [paramAt, h]

@[simp] theorem paramAt_nil {α β : Type} [BEq α] (base : α → β) (x : α) : paramAt [] base x = base x := rfl

@[simp] theorem gamma8At_zero (cfg : Config) : gamma8At cfg 0#8 = 0#8 := rfl

/-- A given entry of `GAMMA8` reads as given, at 0 too where it keeps R91. -/
theorem gamma8At_of_lookup {cfg : Config} {x v : Byte} (h : cfg.gamma8.lookup x = some v) (h0 : x = 0#8 → v = 0#8) :
    gamma8At cfg x = v := by
  unfold gamma8At
  split
  · exact (h0 ‹_›).symm
  · exact paramAt_of_lookup h

/-- The last entry of `GAMMA16` is at least 65024 (R93). -/
theorem gamma16Last_ge (v : Half) : 65024 ≤ (gamma16Last v).toNat := by
  unfold gamma16Last
  split
  · assumption
  · rw [BitVec.toNat_or]
    exact Nat.left_le_or

theorem gamma16Last_of_ge {v : Half} (h : 65024 ≤ v.toNat) : gamma16Last v = v := if_pos h

/-- Under the default `EXPAND` entry 0 of `GAMMA16` is 0 (R93). -/
theorem gamma16At_zero {cfg : Config} (h : cfg.expand = []) : gamma16At cfg 0#8 = 0#16 := by simp [gamma16At, h]

/-- Under the default `EXPAND` entry 255 of `GAMMA16` is at least 65024, whatever its open bits are (R93). -/
theorem gamma16At_last {cfg : Config} (h : cfg.expand = []) : 65024 ≤ (gamma16At cfg 255#8).toNat := by
  simpa [gamma16At, h] using gamma16Last_ge _

/-- With `EXPAND` replaced every entry of `GAMMA16` is the given or open one (U7). -/
theorem gamma16At_replaced {cfg : Config} (h : cfg.expand ≠ []) (x : Byte) :
    gamma16At cfg x = paramAt cfg.gamma16 Config.gamma16Open x := by
  simp [gamma16At, h]

/-- `GAMMA16` is the given or open entry wherever that keeps R93, or `EXPAND` is replaced. -/
theorem gamma16At_eq_paramAt {cfg : Config} {x : Byte}
    (h : cfg.expand = [] → (x = 0#8 → paramAt cfg.gamma16 Config.gamma16Open x = 0#16) ∧
      (x = 255#8 → 65024 ≤ (paramAt cfg.gamma16 Config.gamma16Open x).toNat)) :
    gamma16At cfg x = paramAt cfg.gamma16 Config.gamma16Open x := by
  by_cases he : cfg.expand = []
  · by_cases h0 : x = 0#8
    · simp [gamma16At, he, h0, ← (h he).1 h0]
    · by_cases hl : x = 255#8
      · simpa [gamma16At, he, hl] using gamma16Last_of_ge (by simpa [hl] using (h he).2 hl)
      · simp [gamma16At, h0, hl]
  · exact gamma16At_replaced he x

end Sys2Proof.Machine
end

