-- ==== Sys2Proof/Laws/Encoding.lean ====
section
/-! SUPPORT. Command words field by field: what assembling and taking apart do to each other, and masking. -/

namespace Sys2Proof

open Sys2Proof.Machine

/-- A command word as a number (R67). -/
theorem toNat_commandWord (op rsv : Byte) (a : Half) (d : Packed) :
    (commandWord op rsv a d).toNat = op.toNat * 2 ^ 56 + rsv.toNat * 2 ^ 48 + a.toNat * 2 ^ 32 + d.toNat := by
  simp only [commandWord, toNat_append_add]
  omega

@[simp] theorem opField_commandWord (op rsv : Byte) (a : Half) (d : Packed) : opField (commandWord op rsv a d) = op := by
  apply BitVec.eq_of_toNat_eq
  simp only [opField, BitVec.extractLsb'_toNat, toNat_commandWord, Nat.shiftRight_eq_div_pow]
  have := op.isLt; have := rsv.isLt; have := a.isLt; have := d.isLt
  omega

@[simp] theorem rsvField_commandWord (op rsv : Byte) (a : Half) (d : Packed) : rsvField (commandWord op rsv a d) = rsv := by
  apply BitVec.eq_of_toNat_eq
  simp only [rsvField, BitVec.extractLsb'_toNat, toNat_commandWord, Nat.shiftRight_eq_div_pow]
  have := op.isLt; have := rsv.isLt; have := a.isLt; have := d.isLt
  omega

@[simp] theorem aField_commandWord (op rsv : Byte) (a : Half) (d : Packed) : aField (commandWord op rsv a d) = a := by
  apply BitVec.eq_of_toNat_eq
  simp only [aField, BitVec.extractLsb'_toNat, toNat_commandWord, Nat.shiftRight_eq_div_pow]
  have := op.isLt; have := rsv.isLt; have := a.isLt; have := d.isLt
  omega

@[simp] theorem dField_commandWord (op rsv : Byte) (a : Half) (d : Packed) : dField (commandWord op rsv a d) = d := by
  apply BitVec.eq_of_toNat_eq
  simp only [dField, BitVec.extractLsb'_toNat, toNat_commandWord, Nat.shiftRight_eq_div_pow]
  have := op.isLt; have := rsv.isLt; have := a.isLt; have := d.isLt
  omega

/-- Every word is the command word of its own four fields (R67). -/
theorem commandWord_fields (w : Word) : commandWord (opField w) (rsvField w) (aField w) (dField w) = w := by
  apply BitVec.eq_of_toNat_eq
  rw [toNat_commandWord]
  simp only [opField, rsvField, aField, dField, BitVec.extractLsb'_toNat, Nat.shiftRight_eq_div_pow]
  have := w.isLt
  omega

/-- `d` as its four bytes (R68). -/
theorem dField_bytes (w : Word) :
    dField w = (dField w).extractLsb' 24 8 ++ (dField w).extractLsb' 16 8 ++ dHighByte w ++ dByte w := by
  apply BitVec.eq_of_toNat_eq
  simp only [toNat_append_add, dHighByte, dByte, BitVec.extractLsb'_toNat, Nat.shiftRight_eq_div_pow]
  have := (dField w).isLt
  omega

theorem toNat_byteOperand (x : Byte) : (byteOperand x).toNat = x.toNat := by
  simp only [byteOperand, toNat_append_add, BitVec.toNat_ofNat]
  omega

theorem toNat_satValOperand (sat val : Byte) : (satValOperand sat val).toNat = sat.toNat * 2 ^ 8 + val.toNat := by
  simp only [satValOperand, toNat_append_add, BitVec.toNat_ofNat]
  omega

theorem toNat_rgbOperand (c : Rgb) : (rgbOperand c).toNat = c.r.toNat * 2 ^ 16 + c.g.toNat * 2 ^ 8 + c.b.toNat := by
  simp only [rgbOperand, toNat_append_add, BitVec.toNat_ofNat]
  omega

/-- An encoded operation as a number: its opcode, `a` and `d` (R67, R73). -/
theorem toNat_encode (i : Instr) :
    (encode i).toNat = (opcodeOf i).toNat * 2 ^ 56 + (aOperand i).toNat * 2 ^ 32 + (dOperand i).toNat := by
  rw [encode, toNat_commandWord, show (0#8 : Byte).toNat = 0 from rfl]
  omega

/-- Masking goes into a concatenation. -/
theorem append_and {n m : Nat} (x y : BitVec n) (u v : BitVec m) : (x ++ u) &&& (y ++ v) = (x &&& y) ++ (u &&& v) := by
  ext i hi
  simp only [BitVec.getElem_and, BitVec.getElem_append]
  split <;> simp

/-- Masking a command word masks its fields. -/
theorem commandWord_and (op op' rsv rsv' : Byte) (a a' : Half) (d d' : Packed) :
    commandWord op rsv a d &&& commandWord op' rsv' a' d' =
      commandWord (op &&& op') (rsv &&& rsv') (a &&& a') (d &&& d') :=
  (append_and _ _ _ _).trans (by rw [append_and, append_and]; rfl)

/-- The fields of a word, the operands named without reference to `d`. -/
theorem dByte_eq (w : Word) : dByte w = w.extractLsb' 0 8 := by
  apply BitVec.eq_of_toNat_eq
  simp only [dByte, dField, BitVec.extractLsb'_toNat, Nat.shiftRight_eq_div_pow]
  omega

theorem dHighByte_eq (w : Word) : dHighByte w = w.extractLsb' 8 8 := by
  apply BitVec.eq_of_toNat_eq
  simp only [dHighByte, dField, BitVec.extractLsb'_toNat, Nat.shiftRight_eq_div_pow]
  omega

theorem dRgb_eq (w : Word) : dRgb w = { r := w.extractLsb' 16 8, g := w.extractLsb' 8 8, b := w.extractLsb' 0 8 } := by
  have h : ∀ k, k + 8 ≤ 32 → (dField w).extractLsb' k 8 = w.extractLsb' k 8 := by
    intro k hk
    ext i hi
    simp only [dField, BitVec.getElem_extractLsb', BitVec.getLsbD_extractLsb']
    simp [show k + i < 32 by omega]
  simp only [dRgb, h 16 (by decide), h 8 (by decide), h 0 (by decide)]

/-- Under the mask of the opcode table (R70) a word keeps `op` and `rsv`. -/
theorem and_opMask (w : Word) : w &&& 0xFFFF000000000000#64 = commandWord (opField w) (rsvField w) 0#16 0#32 := by
  conv_lhs => rw [← commandWord_fields w]
  rw [show (0xFFFF000000000000#64 : Word) = commandWord (BitVec.allOnes 8) (BitVec.allOnes 8) 0#16 0#32 by decide,
    commandWord_and]
  simp only [BitVec.and_allOnes, BitVec.and_zero]

/-- Under that mask an encoded operation is its opcode alone. -/
theorem encode_and_opMask (i : Instr) :
    encode i &&& 0xFFFF000000000000#64 = commandWord (opcodeOf i) 0#8 0#16 0#32 := by
  rw [and_opMask, encode, opField_commandWord, rsvField_commandWord]

/-- A word that a row of the opcode table matches has the row's `op` and `rsv` 0 (R70). -/
theorem fields_of_match {w : Word} {op : Byte} (h : w &&& 0xFFFF000000000000#64 = commandWord op 0#8 0#16 0#32) :
    opField w = op ∧ rsvField w = 0#8 := by
  rw [and_opMask] at h
  exact ⟨by simpa using congrArg opField h, by simpa using congrArg rsvField h⟩

/-- What a decoded word says: `rsv` is 0, `op` is the operation's opcode, and each operand is its field (R68, R70, R71). -/
theorem decode_ok {w : Word} {i : Instr} (h : decode w = .ok i) :
    rsvField w = 0#8 ∧ opField w = opcodeOf i ∧
    i =
      (match i with
      | .gamma8 _ => .gamma8 (dByte w)
      | .gamma16 _ => .gamma16 (dByte w)
      | .gamma32 _ => .gamma32 (dField w)
      | .expand _ => .expand (dRgb w)
      | .sine8 _ => .sine8 (dByte w)
      | .hsv _ _ _ => .hsv (aField w) (dHighByte w) (dByte w)
      | .hdq _ => .hdq (dRgb w)
      | .setlen _ => .setlen (aField w)
      | .setpix _ _ => .setpix (aField w) (dRgb w)
      | .getpix _ => .getpix (aField w)
      | .fill _ => .fill (dRgb w)
      | .setbrt _ => .setbrt (dByte w)
      | .getbrt => .getbrt
      | .showFrame => .showFrame) := by
  unfold decode at h
  split at h
  · cases h
  · next hr =>
    refine ⟨by simpa using hr, ?_⟩
    have key : ∀ n, (opField w).toNat = n → opField w = BitVec.ofNat 8 n := fun n hn => by rw [← hn]; simp
    split at h <;> first
      | (cases h; rename_i hn; exact ⟨key _ hn, rfl⟩)
      | cases h

end Sys2Proof
end

