-- ==== Sys2Proof/Laws/FrameEncoder.lean ====
section
/-! SUPPORT. The frame byte by byte, and the sequencer's walk through it. -/

namespace Sys2Proof.Machine

/-! ### What the frame depends on -/

/-- A quad depends on the configuration, the buffer and the brightness alone (R158). -/
theorem quad_congr {s t : State} (hc : t.cfg = s.cfg) (hb : t.buf = s.buf) (hr : t.brt = s.brt) : quad t = quad s := by
  funext i
  simp [quad, hdQuad, standardQuad, scaledPixel, scaledByte, hc, hb, hr]

theorem endBytes_congr {s t : State} (hc : t.cfg = s.cfg) (hn : t.n = s.n) : endBytes t = endBytes s := by
  simp [endBytes, hc, hn]

theorem frame_congr {s t : State} (hc : t.cfg = s.cfg) (hb : t.buf = s.buf) (hr : t.brt = s.brt) (hn : t.n = s.n) :
    frame t = frame s := by
  simp [frame, quad_congr hc hb hr, endBytes_congr hc hn, hn]

theorem frameLength_congr {s t : State} (hc : t.cfg = s.cfg) (hn : t.n = s.n) : frameLength t = frameLength s := by
  simp [frameLength, endBytes_congr hc hn, hn]

/-! ### The bytes of the frame -/

@[simp] theorem quad_length (s : State) (i : Nat) : (quad s i).length = 4 := by
  unfold quad
  split <;> rfl

/-- Element `4*i + k` of a list of four-element pieces is element `k` of piece `i`. -/
theorem getElem?_flatMap_four {α : Type} (f : Nat → List α) (hf : ∀ i, (f i).length = 4) (n : Nat) :
    ((List.range n).flatMap f).length = 4 * n ∧
    ∀ i k, i < n → k < 4 → ((List.range n).flatMap f)[4 * i + k]? = (f i)[k]? := by
  induction n with
  | zero => simp
  | succ n ih =>
    rw [List.range_succ, List.flatMap_append]
    simp only [List.flatMap_cons, List.flatMap_nil, List.append_nil]
    refine ⟨by rw [List.length_append, ih.1, hf]; omega, fun i k hi hk => ?_⟩
    by_cases h : i = n
    · subst h
      rw [List.getElem?_append_right (by rw [ih.1]; omega), ih.1]
      congr 1
      omega
    · rw [List.getElem?_append_left (by rw [ih.1]; omega)]
      exact ih.2 i k (by omega) hk

theorem frame_length (s : State) : (frame s).length = frameLength s := by
  rw [frame, List.length_append, List.length_append, List.length_replicate, List.length_replicate,
    (getElem?_flatMap_four (quad s) (quad_length s) s.n.toNat).1, frameLength]

/-- The start frame's bytes (R154). -/
theorem frame_start (s : State) {k : Nat} (h : k < 4) : (frame s)[k]? = some 0x00#8 := by
  rw [frame, List.append_assoc, List.getElem?_append_left (by simpa using h), List.getElem?_replicate, if_pos h]

/-- The bytes of pixel `i` (R152). -/
theorem frame_pixel (s : State) {i k : Nat} (hi : i < s.n.toNat) (hk : k < 4) :
    (frame s)[4 + 4 * i + k]? = (quad s i)[k]? := by
  have hq := getElem?_flatMap_four (quad s) (quad_length s) s.n.toNat
  rw [frame, List.append_assoc, List.getElem?_append_right (by simp; omega), List.length_replicate,
    List.getElem?_append_left (by rw [hq.1]; omega), show 4 + 4 * i + k - 4 = 4 * i + k by omega]
  exact hq.2 i k hi hk

/-- The end frame's bytes (R160). -/
theorem frame_end (s : State) {j : Nat} (hj : j < endBytes s) : (frame s)[4 + 4 * s.n.toNat + j]? = some 0xFF#8 := by
  have hq := getElem?_flatMap_four (quad s) (quad_length s) s.n.toNat
  have hl : (List.replicate 4 0x00#8 ++ (List.range s.n.toNat).flatMap (quad s)).length = 4 + 4 * s.n.toNat := by
    rw [List.length_append, List.length_replicate, hq.1]
  rw [frame, List.getElem?_append_right (by omega), hl, List.getElem?_replicate, if_pos (by omega)]

/-! ### The walk -/

/-- The sequencer's position at byte `idx` of the frame; none past its end. -/
def seqAt (s : State) (idx : Nat) : Option SeqState :=
  if h : idx < 4 then some (.start ⟨idx, h⟩)
  else if idx < 4 + 4 * s.n.toNat then some (.pixel ((idx - 4) / 4) ⟨(idx - 4) % 4, Nat.mod_lt _ (by decide)⟩)
  else if idx < frameLength s then some (.endFrame (idx - 4 - 4 * s.n.toNat))
  else none

theorem seqAt_eq_none {s : State} {idx : Nat} (h : frameLength s ≤ idx) : seqAt s idx = none := by
  unfold frameLength at h
  simp [seqAt, frameLength, show ¬ idx < 4 by omega, show ¬ idx < 4 + 4 * s.n.toNat by omega,
    show ¬ idx < 4 + 4 * s.n.toNat + endBytes s by omega]

/-- The position of a byte is legal (R165). -/
theorem seqAt_legal {s : State} {idx : Nat} {q : SeqState} (h : seqAt s idx = some q) : seqLegal s q := by
  unfold seqAt at h
  split at h
  · cases h; trivial
  · split at h
    · cases h; simp only [seqLegal]; omega
    · split at h
      · next h3 => cases h; simp only [seqLegal, frameLength] at *; omega
      · cases h

/-- From the position of a byte the sequencer goes to the position of the next one (R165). -/
theorem seqNext_seqAt {s : State} {idx : Nat} {q : SeqState} (h : seqAt s idx = some q) :
    seqNext s q = seqAt s (idx + 1) := by
  unfold seqAt at h
  split at h
  · next h1 =>
    cases h
    simp only [seqNext]
    by_cases h3 : idx < 3
    · rw [if_pos h3, seqAt, dif_pos (by omega)]
      congr 2
      rw [Fin.ext_iff, Fin.val_add, show ((1 : Fin 4) : Nat) = 1 from rfl]
      simp only
      omega
    · rw [if_neg h3]
      have : idx = 3 := by omega
      subst this
      unfold seqAt endEntry frameLength
      by_cases hn : 0 < s.n.toNat
      · simp [hn]
      · by_cases he : 0 < endBytes s
        · simp [he, show s.n.toNat = 0 by omega]
        · simp [show s.n.toNat = 0 by omega, show endBytes s = 0 by omega]
  · split at h
    · next h1 h2 =>
      cases h
      simp only [seqNext]
      by_cases h3 : (idx - 4) % 4 < 3
      · rw [if_pos h3, seqAt, dif_neg (by omega), if_pos (by omega)]
        congr 2
        · omega
        · rw [Fin.ext_iff, Fin.val_add, show ((1 : Fin 4) : Nat) = 1 from rfl]
          simp only
          omega
      · rw [if_neg h3]
        by_cases hn : (idx - 4) / 4 + 1 < s.n.toNat
        · rw [if_pos hn, seqAt, dif_neg (by omega), if_pos (by omega)]
          congr 2
          · omega
          · rw [Fin.ext_iff]
            simp only [Fin.val_zero]
            omega
        · rw [if_neg hn, seqAt, dif_neg (by omega), if_neg (by omega), endEntry, frameLength]
          by_cases he : 0 < endBytes s
          · rw [if_pos he, if_pos (by omega)]
            congr 2
            omega
          · rw [if_neg he, if_neg (by omega)]
    · split at h
      · next h1 h2 h3 =>
        cases h
        simp only [seqNext]
        unfold frameLength at h3
        by_cases he : idx - 4 - 4 * s.n.toNat + 1 < endBytes s
        · rw [if_pos he, seqAt, dif_neg (by omega), if_neg (by omega), frameLength, if_pos (by omega)]
          congr 2
          omega
        · rw [if_neg he, seqAt_eq_none (by unfold frameLength; omega)]
      · cases h

/-- The byte emitted at the position of a byte of the frame is that byte (R165). -/
theorem frame_seqAt {s : State} {idx : Nat} {q : SeqState} (h : seqAt s idx = some q) :
    (frame s)[idx]? = some (seqByte s q) := by
  unfold seqAt at h
  split at h
  · next h1 => cases h; exact frame_start s h1
  · split at h
    · next h1 h2 =>
      cases h
      have hk : (idx - 4) % 4 < 4 := Nat.mod_lt _ (by decide)
      have := frame_pixel s (i := (idx - 4) / 4) (k := (idx - 4) % 4) (by omega) hk
      rw [show 4 + 4 * ((idx - 4) / 4) + (idx - 4) % 4 = idx by omega] at this
      rw [this, seqByte, List.getD_eq_getElem?_getD, List.getElem?_eq_getElem (by simpa using hk)]
      rfl
    · split at h
      · next h1 h2 h3 =>
        cases h
        have := frame_end s (j := idx - 4 - 4 * s.n.toNat) (by unfold frameLength at h3; omega)
        rw [show 4 + 4 * s.n.toNat + (idx - 4 - 4 * s.n.toNat) = idx by omega] at this
        rw [this, seqByte]
      · cases h

theorem seqAt_isSome {s : State} {idx : Nat} (h : idx < frameLength s) : ∃ q, seqAt s idx = some q := by
  unfold seqAt
  split
  · exact ⟨_, rfl⟩
  · split
    · exact ⟨_, rfl⟩
    · exact ⟨_, rfl⟩

/-- A SHOW in progress: `idx` bytes of the frame handed over, the transport in the state `tr`. -/
def showing (s : State) (idx : Nat) (tr : Transport) : State :=
  { s with seq := seqAt s idx, out := s.out ++ (frame s).take idx, transport := tr }

/-- A SHOW that has ended. -/
def shown (s : State) (tr : Transport) : State :=
  { s with seq := none, out := s.out ++ frame s, rsps := s.rsps ++ [0#64], transport := tr }

/-- A SHOW in progress that reaches the frame's end has ended. -/
theorem seqAdvance_showing {s : State} {idx : Nat} {q : SeqState} (tr : Transport) (h : seqAt s idx = some q) :
    seqAdvance { emit (showing s idx tr) (seqByte s q) with transport := tr } q =
      if idx + 1 < frameLength s then showing s (idx + 1) tr else shown s tr := by
  have hb := frame_seqAt h
  have hlt : idx < (frame s).length := by
    by_contra hc
    rw [List.getElem?_eq_none (by omega)] at hb
    cases hb
  have htake : (frame s).take (idx + 1) = (frame s).take idx ++ [seqByte s q] := by
    rw [List.take_add_one, hb]; rfl
  have hnext : seqNext { emit (showing s idx tr) (seqByte s q) with transport := tr } q = seqAt s (idx + 1) :=
    seqNext_seqAt (s := s) h
  unfold seqAdvance
  rw [hnext]
  by_cases hl : idx + 1 < frameLength s
  · obtain ⟨q', hq'⟩ := seqAt_isSome hl
    rw [hq', if_pos hl]
    simp [showing, emit, htake, hq']
  · have hend : (frame s).take (idx + 1) = frame s := by
      rw [frame_length] at hlt
      exact List.take_of_length_le (by rw [frame_length]; omega)
    rw [seqAt_eq_none (by omega), if_neg hl]
    simp only [showing, shown, emit, respond, List.append_assoc]
    rw [← htake, hend]

/-- One step of a SHOW in progress whose transport returns. -/
theorem seqStep_showing_fair {s : State} {idx : Nat} {q : SeqState} (h : seqAt s idx = some q) :
    seqStep (showing s idx .fair) q = if idx + 1 < frameLength s then showing s (idx + 1) .fair else shown s .fair :=
  seqAdvance_showing .fair h

/-- One step of a SHOW in progress whose transport takes more than one byte more. -/
theorem seqStep_showing_more {s : State} {idx k : Nat} {q : SeqState} (h : seqAt s idx = some q) :
    seqStep (showing s idx (.stuckAfter (k + 2))) q =
      if idx + 1 < frameLength s then showing s (idx + 1) (.stuckAfter (k + 1)) else shown s (.stuckAfter (k + 1)) :=
  seqAdvance_showing (.stuckAfter (k + 1)) h

/-- A SHOW whose transport always returns runs to its end (R152, R165). -/
theorem runSeq_showing_fair (s : State) : ∀ (fuel idx : Nat), idx < frameLength s → frameLength s ≤ idx + fuel →
    runSeq fuel (showing s idx .fair) = shown s .fair
  | 0, idx, h, hf => by omega
  | fuel + 1, idx, h, hf => by
    obtain ⟨q, hq⟩ := seqAt_isSome h
    have hseq : (showing s idx .fair).seq = some q := hq
    rw [runSeq, hseq]
    simp only
    rw [seqStep_showing_fair hq]
    split
    · next hl => exact runSeq_showing_fair s fuel (idx + 1) hl (by omega)
    · cases fuel <;> rfl

/-- A block that waits in a `transfer` that never returns stays as it is. -/
theorem runSeq_hung {s : State} (h : s.transport = .stuckAfter 0) : ∀ fuel, runSeq fuel s = s
  | 0 => rfl
  | fuel + 1 => by
    rw [runSeq]
    cases hs : s.seq with
    | none => rfl
    | some q =>
      simp only
      rw [show seqStep s q = s by simp [seqStep, h]]
      exact runSeq_hung h fuel

/-- A SHOW whose transport takes `k + 1` bytes more and never returns from the last: it hangs in that byte's `transfer`,
or ends before it. -/
theorem runSeq_showing_stuck (s : State) : ∀ (fuel idx k : Nat), idx < frameLength s → frameLength s ≤ idx + fuel →
    (idx + k < frameLength s → ∃ q, seqAt s (idx + k) = some q ∧
      runSeq fuel (showing s idx (.stuckAfter (k + 1))) =
        { s with seq := some q, out := s.out ++ (frame s).take (idx + k + 1), transport := .stuckAfter 0 }) ∧
    (frameLength s ≤ idx + k →
      runSeq fuel (showing s idx (.stuckAfter (k + 1))) = shown s (.stuckAfter (idx + k + 1 - frameLength s)))
  | 0, idx, k, h, hf => by omega
  | fuel + 1, idx, 0, h, hf => by
    obtain ⟨q, hq⟩ := seqAt_isSome h
    have hseq : (showing s idx (.stuckAfter 1)).seq = some q := hq
    refine ⟨fun _ => ⟨q, hq, ?_⟩, fun hl => by omega⟩
    rw [runSeq, hseq]
    simp only
    have htake : (frame s).take (idx + 1) = (frame s).take idx ++ [seqByte s q] := by
      rw [List.take_add_one, frame_seqAt hq]; rfl
    have hstep : seqStep (showing s idx (.stuckAfter 1)) q =
        { s with seq := some q, out := s.out ++ (frame s).take (idx + 1), transport := .stuckAfter 0 } := by
      rw [htake, ← List.append_assoc]
      rfl
    rw [hstep, runSeq_hung rfl]
  | fuel + 1, idx, k + 1, h, hf => by
    obtain ⟨q, hq⟩ := seqAt_isSome h
    have hseq : (showing s idx (.stuckAfter (k + 2))).seq = some q := hq
    have hrun : runSeq (fuel + 1) (showing s idx (.stuckAfter (k + 2))) =
        runSeq fuel (if idx + 1 < frameLength s then showing s (idx + 1) (.stuckAfter (k + 1))
          else shown s (.stuckAfter (k + 1))) := by
      rw [runSeq, hseq]
      simp only
      rw [seqStep_showing_more hq]
    rw [hrun]
    by_cases hl : idx + 1 < frameLength s
    · rw [if_pos hl]
      have ih := runSeq_showing_stuck s fuel (idx + 1) k hl (by omega)
      rw [show idx + 1 + k = idx + (k + 1) by omega] at ih
      exact ih
    · rw [if_neg hl]
      refine ⟨fun hc => by omega, fun _ => ?_⟩
      rw [show idx + (k + 1) + 1 - frameLength s = k + 1 by omega]
      cases fuel <;> rfl

/-- A step of the sequencer writes no architectural state (R164): it only appends to `OUT`, moves `SEQ`, uses the
transport and, at the end, drives a response. -/
theorem seqStep_frame (s : State) (q : SeqState) :
    (seqStep s q).cfg = s.cfg ∧ (seqStep s q).buf = s.buf ∧ (seqStep s q).n = s.n ∧ (seqStep s q).valid = s.valid ∧
    (seqStep s q).brt = s.brt ∧ (seqStep s q).cmds = s.cmds ∧ (seqStep s q).allocs = s.allocs ∧
    (seqStep s q).draws = s.draws ∧ ∃ l, (seqStep s q).out = s.out ++ l := by
  have hadv : ∀ (t : State) (q : SeqState),
      (seqAdvance t q).cfg = t.cfg ∧ (seqAdvance t q).buf = t.buf ∧ (seqAdvance t q).n = t.n ∧
      (seqAdvance t q).valid = t.valid ∧ (seqAdvance t q).brt = t.brt ∧ (seqAdvance t q).cmds = t.cmds ∧
      (seqAdvance t q).allocs = t.allocs ∧ (seqAdvance t q).draws = t.draws ∧ (seqAdvance t q).out = t.out := by
    intro t q
    unfold seqAdvance
    split <;> simp
  unfold seqStep
  split
  · obtain ⟨h1, h2, h3, h4, h5, h6, h7, h8, h9⟩ := hadv (emit s (seqByte s q)) q
    exact ⟨h1, h2, h3, h4, h5, h6, h7, h8, _, h9⟩
  · exact ⟨rfl, rfl, rfl, rfl, rfl, rfl, rfl, rfl, [], by simp⟩
  · exact ⟨rfl, rfl, rfl, rfl, rfl, rfl, rfl, rfl, _, rfl⟩
  · next k _ =>
    obtain ⟨h1, h2, h3, h4, h5, h6, h7, h8, h9⟩ :=
      hadv { emit s (seqByte s q) with transport := .stuckAfter (k + 1) } q
    exact ⟨h1, h2, h3, h4, h5, h6, h7, h8, _, h9⟩

/-- A run of the sequencer writes no architectural state (R164). -/
theorem runSeq_frame : ∀ (fuel : Nat) (s : State),
    (runSeq fuel s).cfg = s.cfg ∧ (runSeq fuel s).buf = s.buf ∧ (runSeq fuel s).n = s.n ∧
    (runSeq fuel s).valid = s.valid ∧ (runSeq fuel s).brt = s.brt ∧ (runSeq fuel s).cmds = s.cmds ∧
    (runSeq fuel s).allocs = s.allocs ∧ (runSeq fuel s).draws = s.draws ∧ ∃ l, (runSeq fuel s).out = s.out ++ l
  | 0, s => ⟨rfl, rfl, rfl, rfl, rfl, rfl, rfl, rfl, [], by simp [runSeq]⟩
  | fuel + 1, s => by
    rw [runSeq]
    cases hs : s.seq with
    | none => exact ⟨rfl, rfl, rfl, rfl, rfl, rfl, rfl, rfl, [], by simp⟩
    | some q =>
      simp only
      obtain ⟨h1, h2, h3, h4, h5, h6, h7, h8, l, h9⟩ := seqStep_frame s q
      obtain ⟨g1, g2, g3, g4, g5, g6, g7, g8, k, g9⟩ := runSeq_frame fuel (seqStep s q)
      exact ⟨g1.trans h1, g2.trans h2, g3.trans h3, g4.trans h4, g5.trans h5, g6.trans h6, g7.trans h7, g8.trans h8,
        l ++ k, by rw [g9, h9, List.append_assoc]⟩

end Sys2Proof.Machine
end

