-- ==== Sys2Proof/Laws/Meanings.lean ====
section
/-! SUPPORT. One lemma for each function the meanings share: brightness, the quantizer's tests and mantissas, HSV's
channels, the two paths of a pixel access, a run of operations; and the configuration's points. -/

namespace Sys2Proof.Machine

/-! ### The configuration -/

/-- A function listed at every argument of `l` is the parameter's value at each of them. -/
theorem paramAt_map {α β : Type} [BEq α] [LawfulBEq α] (f base : α → β) {l : List α} {x : α} (h : x ∈ l) :
    paramAt (l.map fun a => (a, f a)) base x = f x := by
  refine paramAt_of_lookup ?_
  induction l with
  | nil => cases h
  | cons a l ih =>
    rw [List.map_cons, List.lookup_cons]
    by_cases hx : x = a
    · subst hx; simp
    · rw [show (x == a) = false by simpa using hx]
      exact ih ((List.mem_cons.1 h).resolve_left hx)

/-! ### Brightness -/

theorem toNat_storedOfLogical (l : Byte) : (storedOfLogical l).toNat = (l.toNat + 1) % 256 := by
  simp [storedOfLogical]

theorem toNat_logicalOfStored (b : Byte) : (logicalOfStored b).toNat = (b.toNat + 255) % 256 := by
  simp [logicalOfStored]

/-- The active scaling as a number (R139). -/
theorem toNat_scale8 (b : Byte) {s : Byte} (h : s ≠ 0#8) : (scale8 b s).toNat = b.toNat * s.toNat / 256 := by
  have hle : b.toNat * s.toNat ≤ 255 * 255 := Nat.mul_le_mul (by omega) (by omega)
  rw [scale8, if_neg h, BitVec.toNat_ofNat, Nat.shiftRight_eq_div_pow]
  omega

/-! ### The quantizer -/

/-- One test of the ladder, channel by channel (R114). -/
theorem fits_iff (c : Rgb16) (num den : Nat) :
    fits c num den = true ↔
      c.r.toNat * num ≤ 65535 * den ∧ c.g.toNat * num ≤ 65535 * den ∧ c.b.toNat * num ≤ 65535 * den := by
  simp [fits, and_assoc]

/-- A mantissa as a number (R116). -/
theorem toNat_mantissa (x : Byte) {s : Nat} (h : s < 2 ^ 16) :
    (mantissa x s).toNat = if x.toNat = 255 ∧ 254 ≤ s / 256 then 255 else s / 256 := by
  have hx : x = 255#8 ↔ x.toNat = 255 := ⟨fun e => by rw [e]; rfl, fun e => BitVec.eq_of_toNat_eq e⟩
  rw [mantissa, Nat.shiftRight_eq_div_pow]
  by_cases hc : x.toNat = 255 ∧ 254 ≤ s / 256
  · rw [if_pos ⟨hx.2 hc.1, hc.2⟩, if_pos hc]; rfl
  · rw [if_neg (fun e => hc ⟨hx.1 e.1, e.2⟩), if_neg hc, BitVec.toNat_ofNat]
    omega

/-! ### HSV -/

/-- `t(c)` fits 16 bits (R183). -/
theorem satVal_le (sat val : Byte) {c : Nat} (h : c ≤ 255) : satVal sat val c ≤ 255 * (val.toNat + 1) := by
  have h1 : c * (sat.toNat + 1) ≤ 255 * (sat.toNat + 1) := Nat.mul_le_mul_right _ h
  rw [satVal, Nat.shiftRight_eq_div_pow]
  exact Nat.mul_le_mul_right _ (by omega)

theorem toNat_hsvChannel (sat val : Byte) {c : Nat} (h : c ≤ 255) :
    (hsvChannel sat val c).toNat = satVal sat val c / 256 := by
  have := satVal_le sat val h
  rw [hsvChannel, BitVec.toNat_ofNat, Nat.shiftRight_eq_div_pow]
  omega

/-! ### Pixel accesses -/

theorem execSetpix_inRange {s : State} {i : Half} (h : inRange s i = true) (c : Rgb) :
    execSetpix i c s = .next (respond (writePixel s i.toNat c) 0#64) := by
  rw [execSetpix, if_pos h]

theorem execSetpix_outOfRange {s : State} {i : Half} (h : ¬ inRange s i = true) (c : Rgb) :
    execSetpix i c s = .next (respond s 0#64) := by
  rw [execSetpix, if_neg h]

theorem execGetpix_inRange {s : State} {i : Half} (h : inRange s i = true) :
    execGetpix i s = .next (respond s (rspPacked (packRgb (readPixel s i.toNat)))) := by
  rw [execGetpix, if_pos h]

theorem execGetpix_outOfRange {s : State} {i : Half} (h : ¬ inRange s i = true) :
    execGetpix i s = .next (respond s 0#64) := by
  rw [execGetpix, if_neg h]

/-- A pixel that was just written reads as written (R135). -/
theorem readPixel_writePixel_same (s : State) (i : Nat) (c : Rgb) : readPixel (writePixel s i c) i = c := by
  obtain ⟨hr, hg, hb, -⟩ := chanOffset_perm s.cfg.order
  have hm : ∀ o, o < 3 → (3 * i + o) / 3 = i ∧ (3 * i + o) % 3 = o := fun o h => by omega
  simp only [readPixel, read_writePixel, writePixel_cfg, pixelAddr, (hm _ hr).1, (hm _ hg).1, (hm _ hb).1,
    (hm _ hr).2, (hm _ hg).2, (hm _ hb).2, if_true, byteAtPosition_red, byteAtPosition_green, byteAtPosition_blue]

/-- Every other pixel reads as before. -/
theorem readPixel_writePixel_ne (s : State) {i k : Nat} (h : k ≠ i) (c : Rgb) :
    readPixel (writePixel s k c) i = readPixel s i := by
  obtain ⟨hr, hg, hb, -⟩ := chanOffset_perm s.cfg.order
  have hm : ∀ o, o < 3 → ¬ (3 * i + o) / 3 = k := fun o ho => by omega
  simp only [readPixel, read_writePixel, writePixel_cfg, pixelAddr, if_neg (hm _ hr), if_neg (hm _ hg),
    if_neg (hm _ hb)]

/-! ### A run of operations -/

/-- Two lists of operations, one after the other (R50). -/
theorem execAll_append (l m : List Instr) (s : State) :
    execAll (l ++ m) s =
      (match execAll l s with
      | .next t => execAll m t
      | .fault r => .fault r
      | .refused r => .refused r) := by
  induction l generalizing s with
  | nil => rfl
  | cons i l ih =>
    simp only [List.cons_append, execAll]
    cases exec i s with
    | next t => exact ih t
    | fault r => rfl
    | refused r => rfl

end Sys2Proof.Machine
end

