-- ==== Sys2Proof/Laws/PerInstr.lean ====
section
/-! SUPPORT. Per operation: its encoding matches its row of spec/opcode_table.json (R70). -/

namespace Sys2Proof.Laws.RowMatch

open Sys2Proof

/-- The row's `match` under the row's `mask`. -/
def rowMatch : Instr → Word
  | .gamma8 _ => 0x0100000000000000#64
  | .gamma16 _ => 0x0200000000000000#64
  | .gamma32 _ => 0x0300000000000000#64
  | .expand _ => 0x0400000000000000#64
  | .sine8 _ => 0x0500000000000000#64
  | .hsv _ _ _ => 0x0600000000000000#64
  | .hdq _ => 0x0800000000000000#64
  | .setlen _ => 0x1000000000000000#64
  | .setpix _ _ => 0x1100000000000000#64
  | .getpix _ => 0x1200000000000000#64
  | .fill _ => 0x1300000000000000#64
  | .setbrt _ => 0x1400000000000000#64
  | .getbrt => 0x1500000000000000#64
  | .showFrame => 0x2000000000000000#64

def Statement (i : Instr) : Prop := encode i &&& 0xFFFF000000000000#64 = rowMatch i

theorem gamma8 (x : Byte) : Statement (.gamma8 x) :=
  (encode_and_opMask _).trans (show commandWord 0x01#8 0#8 0#16 0#32 = 0x0100000000000000#64 by decide)
theorem gamma16 (x : Byte) : Statement (.gamma16 x) :=
  (encode_and_opMask _).trans (show commandWord 0x02#8 0#8 0#16 0#32 = 0x0200000000000000#64 by decide)
theorem gamma32 (c : Packed) : Statement (.gamma32 c) :=
  (encode_and_opMask _).trans (show commandWord 0x03#8 0#8 0#16 0#32 = 0x0300000000000000#64 by decide)
theorem expand (c : Rgb) : Statement (.expand c) :=
  (encode_and_opMask _).trans (show commandWord 0x04#8 0#8 0#16 0#32 = 0x0400000000000000#64 by decide)
theorem sine8 (x : Byte) : Statement (.sine8 x) :=
  (encode_and_opMask _).trans (show commandWord 0x05#8 0#8 0#16 0#32 = 0x0500000000000000#64 by decide)
theorem hsv (hue : Half) (sat val : Byte) : Statement (.hsv hue sat val) :=
  (encode_and_opMask _).trans (show commandWord 0x06#8 0#8 0#16 0#32 = 0x0600000000000000#64 by decide)
theorem hdq (c : Rgb) : Statement (.hdq c) :=
  (encode_and_opMask _).trans (show commandWord 0x08#8 0#8 0#16 0#32 = 0x0800000000000000#64 by decide)
theorem setlen (n : Half) : Statement (.setlen n) :=
  (encode_and_opMask _).trans (show commandWord 0x10#8 0#8 0#16 0#32 = 0x1000000000000000#64 by decide)
theorem setpix (i : Half) (c : Rgb) : Statement (.setpix i c) :=
  (encode_and_opMask _).trans (show commandWord 0x11#8 0#8 0#16 0#32 = 0x1100000000000000#64 by decide)
theorem getpix (i : Half) : Statement (.getpix i) :=
  (encode_and_opMask _).trans (show commandWord 0x12#8 0#8 0#16 0#32 = 0x1200000000000000#64 by decide)
theorem fill (c : Rgb) : Statement (.fill c) :=
  (encode_and_opMask _).trans (show commandWord 0x13#8 0#8 0#16 0#32 = 0x1300000000000000#64 by decide)
theorem setbrt (l : Byte) : Statement (.setbrt l) :=
  (encode_and_opMask _).trans (show commandWord 0x14#8 0#8 0#16 0#32 = 0x1400000000000000#64 by decide)
theorem getbrt : Statement .getbrt :=
  (encode_and_opMask _).trans (show commandWord 0x15#8 0#8 0#16 0#32 = 0x1500000000000000#64 by decide)
theorem showFrame : Statement .showFrame :=
  (encode_and_opMask _).trans (show commandWord 0x20#8 0#8 0#16 0#32 = 0x2000000000000000#64 by decide)

end Sys2Proof.Laws.RowMatch
end

