-- ==== Sys2Proof/Tests/Slice0.lean ====
section
/-! SUPPORT. The model's own tests: ill-formed terms the checks refuse, command words written out from the spec, one-step
vectors of 95_test_vectors.md, and a witness for the hypotheses of every obligation. -/

namespace Sys2Proof.Tests

open Sys2Proof Sys2Proof.Machine

/-! ### Helpers -/

/-- An instance after a reset that allocates, with this channel order, mode, length, brightness and buffer. -/
def strip (o : Order) (hd : Bool) (n : Half) (brt : Byte) (buf : Memory) : State :=
  { State.resetWith { Config.reference with order := o, hd := hd, n0 := n } true with brt := brt, buf := buf }

/-- The same with a configuration of its own. -/
def stripWith (cfg : Config) (brt : Byte) (buf : Memory) : State :=
  { State.resetWith cfg true with brt := brt, buf := buf }

/-- An instance whose allocation failed. -/
def absent : State := State.resetWith Config.reference false

/-- The state an outcome goes on in; the state after reset where it stops (no test uses that). -/
def nextOf : Host.Outcome State Fault Refusal → State
  | .next t => t
  | .fault _ => State.reset
  | .refused _ => State.reset

/-- The responses of one operation, run from `s`. -/
def rspOf (i : Instr) (s : State) : List Word := (nextOf (exec i s)).rsps

/-- The bytes one operation emits, run from `s`. -/
def outOf (i : Instr) (s : State) : List Byte := (nextOf (exec i s)).out

/-- A colour from its three bytes. -/
def rgb (r g b : Byte) : Rgb := { r := r, g := g, b := b }

/-! ### Well-formedness: each check refuses an ill-formed term -/

theorem test_line_gamma8_too_wide : (Line.gamma8 256).wellFormed = false := by decide
theorem test_line_gamma16_too_wide : (Line.gamma16 256).wellFormed = false := by decide
theorem test_line_gamma32_too_wide : (Line.gamma32 0x100000000).wellFormed = false := by decide
theorem test_line_expand_too_wide : (Line.expand 0x1000000).wellFormed = false := by decide
theorem test_line_sine8_too_wide : (Line.sine8 256).wellFormed = false := by decide
theorem test_line_hsv_too_wide :
    (Line.hsv 65536 0 0).wellFormed = false ∧ (Line.hsv 0 256 0).wellFormed = false ∧
      (Line.hsv 0 0 256).wellFormed = false := by decide
theorem test_line_hdq_too_wide : (Line.hdq 0x1000000).wellFormed = false := by decide
theorem test_line_setlen_too_wide : (Line.setlen 65536).wellFormed = false := by decide
theorem test_line_setpix_too_wide :
    (Line.setpix 65536 0).wellFormed = false ∧ (Line.setpix 0 0x1000000).wellFormed = false := by decide
theorem test_line_getpix_too_wide : (Line.getpix 65536).wellFormed = false := by decide
theorem test_line_fill_too_wide : (Line.fill 0x1000000).wellFormed = false := by decide
theorem test_line_setbrt_too_wide : (Line.setbrt 256).wellFormed = false := by decide
theorem test_line_pseudo_too_wide :
    (Line.hsvHue 65536).wellFormed = false ∧ (Line.hsvHueSat 65536 0).wellFormed = false ∧
      (Line.hsvHueSat 0 256).wellFormed = false ∧ (Line.setpixBytes 65536 0 0 0).wellFormed = false ∧
      (Line.setpixBytes 0 256 0 0).wellFormed = false ∧ (Line.setpixBytes 0 0 256 0).wellFormed = false ∧
      (Line.setpixBytes 0 0 0 256).wellFormed = false := by decide

/-- R42, U4: two roles at one offset, and an offset beyond 2. -/
theorem test_order_not_permutation :
    Order.ofOffsets 0 0 0 = none ∧ Order.ofOffsets 0 0 1 = none ∧ Order.ofOffsets 1 2 1 = none ∧
      Order.ofOffsets 0 1 3 = none := by decide

/-- R93, U7: under the default `EXPAND` entry 0 is 0 and a legal entry 255 reads as given; with `EXPAND` replaced both read
as given. -/
theorem test_gamma16_constrained_under_default_expand_only :
    gamma16At { Config.reference with gamma16 := [(0#8, 1#16), (255#8, 65024#16)] } 0#8 = 0#16 ∧
      gamma16At { Config.reference with gamma16 := [(255#8, 65024#16)] } 255#8 = 65024#16 ∧
      gamma16At { Config.reference with gamma16 := [(0#8, 1#16)], expand := [(rgb 0#8 0#8 0#8, ⟨0#16, 0#16, 0#16⟩)] } 0#8 =
        1#16 ∧
      gamma16At
        { Config.reference with gamma16 := [(255#8, 65023#16)], expand := [(rgb 0#8 0#8 0#8, ⟨0#16, 0#16, 0#16⟩)] } 255#8 =
        65023#16 := by decide

/-- R42, R91: a given entry that no legal table has stops no construction. -/
theorem test_construct_with_any_table :
    construct 1 0 2 { Config.reference with gamma8 := [(0#8, 1#8)] } true =
      .next (State.resetWith { Config.reference with gamma8 := [(0#8, 1#8)] } true) := rfl

/-! ### Decoding: words of 95_test_vectors.md 2.1, P1, P3, P4 and of the rows of R70 with the fields of R67 -/

theorem test_decode_gamma8 : decode 0x0100FFFFFFFFFF80#64 = .ok (.gamma8 0x80#8) := by rfl
/-- `op = 0x02`, `d.x = 0xFF`, bits the operation does not name set. -/
theorem test_decode_gamma16 : decode 0x0200123456789AFF#64 = .ok (.gamma16 0xFF#8) := by rfl
theorem test_decode_gamma32 : decode 0x0300000000643915#64 = .ok (.gamma32 0x00643915#32) := by rfl
theorem test_decode_expand : decode 0x0400000000080402#64 = .ok (.expand (rgb 0x08#8 0x04#8 0x02#8)) := by rfl
/-- `op = 0x05`, `d.x = 0x7F`. -/
theorem test_decode_sine8 : decode 0x050000000000007F#64 = .ok (.sine8 0x7F#8) := by rfl
theorem test_decode_hsv : decode 0x060013880000C864#64 = .ok (.hsv 5000#16 200#8 100#8) := by rfl
theorem test_decode_hdq : decode 0x0800000000FF0804#64 = .ok (.hdq (rgb 0xFF#8 0x08#8 0x04#8)) := by rfl
theorem test_decode_setlen : decode 0x1000000400000000#64 = .ok (.setlen 4#16) := by rfl
theorem test_decode_setpix :
    decode 0x11000003AA112233#64 = .ok (.setpix 3#16 (rgb 0x11#8 0x22#8 0x33#8)) := by rfl
theorem test_decode_getpix : decode 0x1200000100000000#64 = .ok (.getpix 1#16) := by rfl
theorem test_decode_fill : decode 0x1300000000FF8001#64 = .ok (.fill (rgb 0xFF#8 0x80#8 0x01#8)) := by rfl
theorem test_decode_setbrt : decode 0x14000000000000FE#64 = .ok (.setbrt 254#8) := by rfl
theorem test_decode_getbrt : decode 0x1500000000000000#64 = .ok .getbrt := by rfl
theorem test_decode_show : decode 0x20001234DEADBEEF#64 = .ok .showFrame := by rfl

/-- The `INVALID` words of 2.1: reserved opcodes. -/
theorem test_decode_reserved :
    decode 0x0000000000000000#64 = .error (.reservedOpcode 0x00#8) ∧
    decode 0x0700000000000000#64 = .error (.reservedOpcode 0x07#8) ∧
    decode 0x0900000000000000#64 = .error (.reservedOpcode 0x09#8) ∧
    decode 0x1600000000000000#64 = .error (.reservedOpcode 0x16#8) ∧
    decode 0x2100000000000000#64 = .error (.reservedOpcode 0x21#8) ∧
    decode 0xFF00FFFFFFFFFFFF#64 = .error (.reservedOpcode 0xFF#8) := ⟨rfl, rfl, rfl, rfl, rfl, rfl⟩

/-- The `INVALID` words of 2.1: `rsv` not zero. -/
theorem test_decode_rsv :
    decode 0x0101000000000080#64 = .error (.rsvNotZero 0x01#8) ∧
    decode 0x2080000000000000#64 = .error (.rsvNotZero 0x80#8) := ⟨rfl, rfl⟩

/-- P1 line 2 and P4 line 1, assembled. -/
theorem test_assemble :
    (assemble (.setpix 1 0x0000FF)).map encode = some 0x11000001000000FF#64 ∧
    (assemble (.hsv 10923 255 255)).map encode = some 0x06002AAB0000FFFF#64 ∧
    (assemble (.setpixBytes 0 0xFF 0x80 0x00)).map encode = some 0x1100000000FF8000#64 := ⟨rfl, rfl, rfl⟩

/-- The opcode table's word of SHOW, stored where the next step accepts it, runs as the first command after reset. -/
theorem test_fetch_show :
    (nextOf (step (State.reset.withFetchWord 64 0x2000000000000000))).rsps = [0#64] ∧
      (nextOf (step (State.reset.withFetchWord 64 0x2000000000000000))).cmds = [] := ⟨rfl, rfl⟩

/-! ### One step: the tables (2.2), the reference entries given as points -/

theorem test_gamma8_zero : rspOf (.gamma8 0#8) State.reset = [0#64] := rfl
theorem test_gamma8_given :
    rspOf (.gamma8 200#8) (stripWith { Config.reference with gamma8 := [(64#8, 7#8), (200#8, 136#8)] } 0#8 []) =
      [0x88#64] := rfl
theorem test_gamma16_zero : rspOf (.gamma16 0#8) State.reset = [0#64] := rfl
theorem test_gamma16_given :
    rspOf (.gamma16 200#8) (stripWith { Config.reference with gamma16 := [(200#8, 34846#16)] } 0#8 []) = [0x881E#64] :=
  rfl
theorem test_gamma32_zero : rspOf (.gamma32 0#32) State.reset = [0#64] := rfl
theorem test_gamma32_lanes :
    rspOf (.gamma32 0x00FF8040#32)
      (stripWith { Config.reference with gamma8 := [(0xFF#8, 255#8), (0x80#8, 42#8), (0x40#8, 7#8)] } 0#8 []) =
      [0x00FF2A07#64] := rfl
theorem test_expand_zero : rspOf (.expand (rgb 0#8 0#8 0#8)) State.reset = [0#64] := rfl
theorem test_expand_default :
    rspOf (.expand (rgb 0xC8#8 0x64#8 0x32#8))
      (stripWith { Config.reference with gamma16 := [(200#8, 34846#16), (100#8, 5747#16), (50#8, 948#16)] } 0#8 []) =
      [0x0000881E167303B4#64] := rfl

/-! ### One step: the quantizer (2.3), on given expanded triples -/

/-- HDQ of the input `c` where `EXPAND` gives the triple `e`. -/
def hdqRsp (c : Rgb) (r g b : Half) : List Word :=
  rspOf (.hdq c) (stripWith { Config.reference with expand := [(c, { r := r, g := g, b := b })] } 0#8 [])

/-- Each side of each threshold of R119, and one channel over the bound stopping the search for all three. -/
theorem test_hdq_thresholds :
    hdqRsp (rgb 1#8 1#8 1#8) 2114#16 0#16 0#16 = [0x01FF0000#64] ∧
    hdqRsp (rgb 1#8 1#8 1#8) 2115#16 0#16 0#16 = [0x03550000#64] ∧
    hdqRsp (rgb 1#8 1#8 1#8) 6342#16 1#16 1#16 = [0x03FF0000#64] ∧
    hdqRsp (rgb 1#8 1#8 1#8) 6343#16 0#16 0#16 = [0x076D0000#64] ∧
    hdqRsp (rgb 1#8 1#8 1#8) 14798#16 0#16 0#16 = [0x07FF0000#64] ∧
    hdqRsp (rgb 1#8 1#8 1#8) 14799#16 0#16 0#16 = [0x0F770000#64] ∧
    hdqRsp (rgb 1#8 1#8 1#8) 31710#16 0#16 0#16 = [0x0FFF0000#64] ∧
    hdqRsp (rgb 1#8 1#8 1#8) 0#16 31710#16 31711#16 = [0x1F007B7B#64] := ⟨rfl, rfl, rfl, rfl, rfl, rfl, rfl, rfl⟩

/-- The boundary correction of R116: 253 stays, 254 becomes 255 only with the input 255. -/
theorem test_hdq_correction :
    hdqRsp (rgb 255#8 255#8 254#8) 65023#16 65024#16 65535#16 = [0x1FFDFFFF#64] ∧
    hdqRsp (rgb 254#8 254#8 254#8) 65024#16 65024#16 65024#16 = [0x1FFEFEFE#64] ∧
    hdqRsp (rgb 255#8 255#8 255#8) 2098#16 2098#16 2098#16 = [0x01FFFFFF#64] ∧
    hdqRsp (rgb 254#8 254#8 254#8) 2098#16 2098#16 2098#16 = [0x01FEFEFE#64] ∧
    hdqRsp (rgb 255#8 255#8 255#8) 2097#16 2097#16 2097#16 = [0x01FDFDFD#64] := ⟨rfl, rfl, rfl, rfl, rfl⟩

/-! ### One step: the pixel buffer (V-S13, V-S17, P2) and the brightness (V-S1, V-S19) -/

/-- R131's example, and the failing draw of P2 line 1. -/
theorem test_setlen :
    bufBytes (nextOf (exec (.setlen 3#16) { strip .rgb false 1#16 5#8 [(0, 9#8)] with allocs := [true] })) =
      List.replicate 9 0x00#8 ∧
    (nextOf (exec (.setlen 4#16) { strip .rgb false 1#16 5#8 [(0, 9#8)] with allocs := [false] })).n = 0#16 :=
  ⟨rfl, rfl⟩

theorem test_setpix_orders :
    (nextOf (exec (.setpix 0#16 (rgb 0x11#8 0x22#8 0x33#8)) (strip .rbg false 1#16 0#8 []))).buf =
      [(0, 0x11#8), (1, 0x33#8), (2, 0x22#8)] ∧
    (nextOf (exec (.setpix 0#16 (rgb 0x11#8 0x22#8 0x33#8)) (strip .gbr false 1#16 0#8 []))).buf =
      [(0, 0x22#8), (1, 0x33#8), (2, 0x11#8)] ∧
    (nextOf (exec (.setpix 0#16 (rgb 0x11#8 0x22#8 0x33#8)) (strip .brg false 1#16 0#8 []))).buf =
      [(0, 0x33#8), (1, 0x11#8), (2, 0x22#8)] := ⟨rfl, rfl, rfl⟩

/-- Out of range it writes nothing; writing `0x00` unlists the byte. -/
theorem test_setpix_edges :
    (nextOf (exec (.setpix 2#16 (rgb 0xFF#8 0xFF#8 0xFF#8)) (strip .rgb false 2#16 0#8 [(5, 7#8)]))).buf =
      [(5, 7#8)] ∧
    (nextOf (exec (.setpix 1#16 (rgb 0x01#8 0x00#8 0x00#8)) (strip .rgb false 2#16 0#8 [(5, 7#8)]))).buf =
      [(3, 1#8)] := ⟨rfl, rfl⟩

theorem test_getpix :
    rspOf (.getpix 0#16) (strip .grb false 2#16 0x80#8 [(0, 0x80#8), (1, 0xFF#8), (5, 0xFF#8)]) = [0x00FF8000#64] ∧
    rspOf (.getpix 1#16) (strip .grb false 2#16 0x80#8 [(0, 0x80#8), (1, 0xFF#8), (5, 0xFF#8)]) = [0xFF#64] ∧
    rspOf (.getpix 2#16) (strip .grb false 2#16 0#8 [(0, 0x80#8)]) = [0#64] ∧
    rspOf (.getpix 65535#16) (strip .grb false 2#16 0#8 [(0, 0x80#8)]) = [0#64] := ⟨rfl, rfl, rfl, rfl⟩

/-- R134's example; with the buffer absent nothing (E5). -/
theorem test_fill :
    bufBytes (nextOf (exec (.fill (rgb 1#8 2#8 3#8)) (strip .rgb false 2#16 0#8 [(4, 9#8)]))) =
      [1#8, 2#8, 3#8, 1#8, 2#8, 3#8] ∧
    (nextOf (exec (.fill (rgb 1#8 2#8 3#8)) absent)).buf = [] := ⟨rfl, rfl⟩

theorem test_setbrt :
    (nextOf (exec (.setbrt 0#8) State.reset)).brt = 1#8 ∧ (nextOf (exec (.setbrt 127#8) State.reset)).brt = 128#8 ∧
    (nextOf (exec (.setbrt 254#8) State.reset)).brt = 255#8 ∧ (nextOf (exec (.setbrt 255#8) State.reset)).brt = 0#8 :=
  ⟨rfl, rfl, rfl, rfl⟩

theorem test_getbrt :
    rspOf .getbrt State.reset = [0xFF#64] ∧ rspOf .getbrt (strip .rgb false 1#16 0x80#8 []) = [0x7F#64] := ⟨rfl, rfl⟩

theorem test_scale8 : scale8 200#8 129#8 = 100#8 ∧ scale8 0xFF#8 0x80#8 = 0x7F#8 ∧ scale8 0xFF#8 0#8 = 0xFF#8 := by
  decide

/-! ### One step: SHOW (2.6, 2.7) -/

/-- 2.6: RGB, `N = 2`, pixels `0xFF8000` and `0x0000FF` at stored 0 and 128; `N = 0`; the buffer absent. -/
theorem test_show_standard :
    outOf .showFrame (strip .rgb false 2#16 0#8 [(0, 0xFF#8), (1, 0x80#8), (5, 0xFF#8)]) =
      [0x00#8, 0x00#8, 0x00#8, 0x00#8, 0xFF#8, 0xFF#8, 0x80#8, 0x00#8, 0xFF#8, 0x00#8, 0x00#8, 0xFF#8, 0xFF#8, 0xFF#8] ∧
    outOf .showFrame (strip .rgb false 2#16 128#8 [(0, 0xFF#8), (1, 0x80#8), (5, 0xFF#8)]) =
      [0x00#8, 0x00#8, 0x00#8, 0x00#8, 0xFF#8, 0x7F#8, 0x40#8, 0x00#8, 0xFF#8, 0x00#8, 0x00#8, 0x7F#8, 0xFF#8, 0xFF#8] ∧
    outOf .showFrame (strip .rgb false 0#16 0#8 []) = [0x00#8, 0x00#8, 0x00#8, 0x00#8, 0xFF#8] ∧
    outOf .showFrame absent = [] := ⟨rfl, rfl, rfl, rfl⟩

/-- 2.7's BGR row and pixel 1 of P3's second frame: `EXPAND` gives `(1000, 2000, 2114)` to the SCALED colour. -/
theorem test_show_hd :
    outOf .showFrame
      (stripWith
        { Config.reference with
          order := .bgr, hd := true, n0 := 1#16
          expand := [(rgb 0x0A#8 0x14#8 0x1E#8, { r := 1000#16, g := 2000#16, b := 2114#16 })] }
        0#8 [(0, 0x1E#8), (1, 0x14#8), (2, 0x0A#8)]) =
      [0x00#8, 0x00#8, 0x00#8, 0x00#8, 0xE1#8, 0xFF#8, 0xF2#8, 0x79#8, 0xFF#8] ∧
    outOf .showFrame
      (stripWith
        { Config.reference with
          order := .bgr, hd := true, n0 := 1#16
          expand := [(rgb 0x04#8 0x02#8 0x01#8, { r := 1028#16, g := 514#16, b := 257#16 })] }
        128#8 [(0, 0x02#8), (1, 0x04#8), (2, 0x08#8)]) =
      [0x00#8, 0x00#8, 0x00#8, 0x00#8, 0xE1#8, 0x1F#8, 0x3E#8, 0x7C#8, 0xFF#8] := ⟨rfl, rfl⟩

/-- 2.6: the lengths of the end frame under the adopted reading. -/
theorem test_end_bytes :
    [0#16, 1#16, 2#16, 3#16, 15#16, 16#16, 17#16, 18#16, 32#16, 33#16, 34#16, 144#16, 1000#16, 65535#16].map
        (endBytesAt Config.reference) =
      [1, 1, 2, 2, 2, 2, 2, 3, 3, 3, 4, 10, 64, 4097] := by decide

/-! ### One step: HSV (2.8) and SINE8 -/

theorem test_hsv_hues :
    rspOf (.hsv 22#16 255#8 255#8) State.reset = [0x00FF0100#64] ∧
    rspOf (.hsv 10923#16 255#8 255#8) State.reset = [0x00FFFF00#64] ∧
    rspOf (.hsv 16384#16 255#8 255#8) State.reset = [0x007FFF00#64] ∧
    rspOf (.hsv 32768#16 255#8 255#8) State.reset = [0x0000FFFF#64] ∧
    rspOf (.hsv 54613#16 255#8 255#8) State.reset = [0x00FF00FF#64] ∧
    rspOf (.hsv 65514#16 255#8 255#8) State.reset = [0x00FF0001#64] ∧
    rspOf (.hsv 65515#16 255#8 255#8) State.reset = [0x00FF0000#64] := ⟨rfl, rfl, rfl, rfl, rfl, rfl, rfl⟩

theorem test_hsv_sat_val :
    rspOf (.hsv 12345#16 0#8 77#8) State.reset = [0x004D4D4D#64] ∧
    rspOf (.hsv 21845#16 128#8 200#8) State.reset = [0x0063C863#64] ∧
    rspOf (.hsv 5000#16 200#8 100#8) State.reset = [0x00643915#64] ∧
    rspOf (.hsv 43690#16 1#8 255#8) State.reset = [0x00FEFEFF#64] := ⟨rfl, rfl, rfl, rfl⟩

/-- R185: a given entry of the open table. -/
theorem test_sine8_given :
    rspOf (.sine8 64#8) (stripWith { Config.reference with sine8 := [(64#8, 255#8)] } 0#8 []) = [0xFF#64] := rfl

/-! ### A step -/

theorem test_step_invalid_refused :
    step { State.reset with cmds := [0x0700000000000000#64] } =
      .refused (.invalidCommand (.reservedOpcode 0x07#8)) := rfl

/-- U1: the second byte's `transfer` never returns; the block then accepts nothing. -/
theorem test_hang :
    (nextOf (exec .showFrame { State.reset with transport := .stuckAfter 2 })).out = [0x00#8, 0x00#8] ∧
    step (nextOf (exec .showFrame { State.reset with transport := .stuckAfter 2 })) = .fault .transferNeverReturns :=
  ⟨rfl, rfl⟩

/-! ### Witnesses: for every obligation with hypotheses, a state and operands that meet them together -/

/-- A strip of two pixels with the channel order of P1 and a byte stored in each pixel. -/
def two : State := strip .grb false 2#16 0x80#8 [(0, 0x80#8), (5, 0xFF#8)]

/-- `two` in HD mode. -/
def twoHd : State := strip .grb true 2#16 0x80#8 [(0, 0x80#8), (5, 0xFF#8)]

/-- `two` with a SHOW in progress at its last end byte. -/
def twoShowing : State := { two with seq := some (.endFrame 1) }

/-- `two` waiting in a `transfer` that never returns. -/
def twoHung : State := { two with seq := some (.pixel 1 2), transport := .stuckAfter 0 }

theorem two_inv : BlockInv two :=
  ⟨by decide, by decide, fun h => absurd h (by decide), fun _ h => by cases h⟩

theorem twoHung_inv : BlockInv twoHung :=
  ⟨by decide, by decide, fun h => absurd h (by decide), fun q h => by cases h; exact ⟨rfl, show 1 < 2 by decide, rfl⟩⟩

theorem absent_inv : BlockInv absent := ⟨by decide, by decide, fun _ => ⟨rfl, rfl⟩, fun _ h => by cases h⟩

theorem witness_UnnamedBitsAreIgnored :
    decode 0x11000003AA112233#64 = .ok (.setpix 3#16 (rgb 0x11#8 0x22#8 0x33#8)) ∧
    0x1100000300112233#64 &&& (0xFFFF000000000000#64 ||| namedBits (.setpix 3#16 (rgb 0x11#8 0x22#8 0x33#8))) =
      0x11000003AA112233#64 &&& (0xFFFF000000000000#64 ||| namedBits (.setpix 3#16 (rgb 0x11#8 0x22#8 0x33#8))) := by
  exact ⟨rfl, by decide⟩

/-- Each clause at both ends of its ranges: `rsv` 1 and 255; the reserved opcodes beside legal ones; the legal ends. -/
theorem witness_InvalidWordsAreTheReservedOnes :
    (∀ w ∈ [0x2001000000000000, 0x00FF000000000000, 0x01FF000000000000],
      (BitVec.ofNat 64 w).toNat / 2 ^ 48 % 256 ≠ 0) ∧
    (∀ w ∈ [0x0000000000000005, 0x0700000000000005, 0x0900000000000005, 0x0F00000000000005, 0x1600000000000005,
        0x1F00000000000005, 0x2100000000000005, 0xFF00000000000005],
      (BitVec.ofNat 64 w).toNat / 2 ^ 48 % 256 = 0 ∧
      (BitVec.ofNat 64 w).toNat / 2 ^ 56 ∉
        [0x01, 0x02, 0x03, 0x04, 0x05, 0x06, 0x08, 0x10, 0x11, 0x12, 0x13, 0x14, 0x15, 0x20]) ∧
    (∀ w ∈ [0x0100000000000005, 0x0600000000000005, 0x0800000000000005, 0x1000000000000005, 0x1500000000000005,
        0x2000000000000005],
      (BitVec.ofNat 64 w).toNat / 2 ^ 48 % 256 = 0 ∧
      (BitVec.ofNat 64 w).toNat / 2 ^ 56 ∈
        [0x01, 0x02, 0x03, 0x04, 0x05, 0x06, 0x08, 0x10, 0x11, 0x12, 0x13, 0x14, 0x15, 0x20]) ∧
    decode 0x2080000000000000#64 = .error (.rsvNotZero 0x80#8) ∧ two.seq = none ∧
    ({ two with cmds := [0x2080000000000000#64] } : State).cmds = [0x2080000000000000#64] :=
  ⟨by simp, by simp, by simp, rfl, rfl, rfl⟩

/-- Every line form with the largest numbers its fields hold assembles; the numbers one above do not (the smoke tests). -/
theorem witness_LineEncodesItsNamedFields :
    ∀ l ∈ [Line.gamma8 255, .gamma16 255, .gamma32 0xFFFFFFFF, .expand 0xFFFFFF, .sine8 255, .hsv 65535 255 255,
      .hdq 0xFFFFFF, .setlen 65535, .setpix 65535 0xFFFFFF, .getpix 65535, .fill 0xFFFFFF, .setbrt 255, .getbrt,
      .showFrame, .clear, .hsvHue 65535, .hsvHueSat 65535 255, .setpixBytes 65535 255 255 255],
      (assemble l).isSome = true := by decide

theorem witness_PseudoOperationsExpand : (255 : Nat) < 256 ∧ assemble (.setpixBytes 65535 255 255 255) ≠ none := by
  decide

theorem witness_StepRunsDecodedCommand :
    ({ two with cmds := [0x2000000000000000#64, 0x1500000000000000#64] } : State).seq = none ∧
    ({ two with cmds := [0x2000000000000000#64, 0x1500000000000000#64] } : State).cmds =
      0x2000000000000000#64 :: [0x1500000000000000#64] ∧
    decode 0x2000000000000000#64 = .ok .showFrame := ⟨rfl, rfl, rfl⟩

theorem witness_StepWithNoCommandWaits : two.seq = none ∧ two.cmds = [] := ⟨rfl, rfl⟩

/-- One state in each of the three cases. -/
theorem witness_OnlyHangOrInvalidWordStops :
    (twoHung.seq ≠ none ∧ twoHung.transport = .stuckAfter 0) ∧
    decode 0x0700000000000000#64 = .error (.reservedOpcode 0x07#8) ∧ step two = .next two :=
  ⟨⟨by decide, rfl⟩, rfl, rfl⟩

theorem witness_NoCommandAcceptedDuringShow :
    twoHung.seq = some (.pixel 1 2) ∧ twoHung.transport = .stuckAfter 0 ∧ twoShowing.seq = some (.endFrame 1) ∧
    step twoShowing = .next { two with out := [0xFF#8], rsps := [0#64] } := ⟨rfl, rfl, rfl, rfl⟩

/-- One configuration for each clause; the second also has every default the third clause asks for. -/
theorem witness_FirstShowEmitsAllOffFrame :
    Config.reference.hd = false ∧
    (∀ cfg : Config, cfg = { Config.reference with hd := true } →
      cfg.hd = true ∧ cfg.expand = [] ∧ cfg.quant = [] ∧ cfg.hdHeader = []) :=
  ⟨rfl, fun _ h => by subst h; exact ⟨rfl, rfl, rfl, rfl⟩⟩

/-- The permutation GRB, both forms of `EXPAND`, and the triples of two roles at one offset and of an offset beyond 2. -/
theorem witness_OnlyPermutationsConstruct :
    ((1 : Nat) < 3 ∧ (0 : Nat) < 3 ∧ (2 : Nat) < 3 ∧ (1 : Nat) ≠ 0 ∧ (1 : Nat) ≠ 2 ∧ (0 : Nat) ≠ 2) ∧
    Config.reference.expand = [] ∧
    ¬ ((0 : Nat) < 3 ∧ (1 : Nat) < 3 ∧ (1 : Nat) < 3 ∧ (0 : Nat) ≠ 1 ∧ (0 : Nat) ≠ 1 ∧ (1 : Nat) ≠ 1) ∧
    ¬ ((0 : Nat) < 3 ∧ (1 : Nat) < 3 ∧ (3 : Nat) < 3 ∧ (0 : Nat) ≠ 1 ∧ (0 : Nat) ≠ 3 ∧ (1 : Nat) ≠ 3) := by decide

/-- A configuration with the default `EXPAND` and given entries at their bounds, one with `EXPAND` replaced whose `GAMMA16`
breaks R93. -/
def tablesDefault : Config :=
  { Config.reference with gamma8 := [(0#8, 0#8)], gamma16 := [(0#8, 0#16), (255#8, 65024#16)] }

def tablesReplaced : Config :=
  { Config.reference with
    gamma16 := [(0#8, 1#16), (255#8, 65023#16)]
    expand := [(rgb 0#8 0#8 0#8, ⟨0#16, 0#16, 0#16⟩)] }

theorem witness_Gamma16Responds :
    tablesDefault.expand = [] ∧ tablesReplaced.expand ≠ [] ∧ tablesReplaced.gamma16.lookup 255#8 = some 65023#16 := by
  decide

/-- A table on each side of each equivalence, and given entries that meet the last two clauses in each of their cases. -/
theorem witness_EveryReplacementIsAConfiguration :
    (fun x : Byte => x) 0#8 = 0#8 ∧ (fun x : Byte => if x = 255#8 then 65024#16 else 0#16) 0#8 = 0#16 ∧
    65024 ≤ ((fun x : Byte => if x = 255#8 then 65024#16 else 0#16) 255#8).toNat ∧
    tablesDefault.expand = [] ∧ tablesReplaced.expand ≠ [] ∧
    tablesDefault.gamma8.lookup 0#8 = some 0#8 ∧ tablesDefault.gamma16.lookup 0#8 = some 0#16 ∧
    tablesDefault.gamma16.lookup 255#8 = some 65024#16 ∧ tablesReplaced.gamma16.lookup 0#8 = some 1#16 := by decide

/-- A step that writes the buffer, and one that ends in a hang. -/
theorem witness_StepKeepsInvariant :
    BlockInv { two with cmds := [0x11000001000000FF#64] } ∧
    (nextOf (step { two with cmds := [0x11000001000000FF#64] })).rsps = [0#64] ∧
    BlockInv { two with cmds := [0x2000000000000000#64], transport := .stuckAfter 1 } ∧
    (nextOf (step { two with cmds := [0x2000000000000000#64], transport := .stuckAfter 1 })).seq =
      some (.start 0) :=
  ⟨⟨two_inv.1, two_inv.2, two_inv.3, two_inv.4⟩, rfl,
    ⟨two_inv.1, two_inv.2, two_inv.3, fun _ h => by cases h⟩, rfl⟩

/-- An operation outside all three classes of the clauses, and what it is not. -/
theorem witness_WritersOfState :
    exec (.gamma8 0#8) two = .next { two with rsps := [0#64] } ∧ (∀ k c, Instr.gamma8 0#8 ≠ .setpix k c) ∧
    (∀ c, Instr.gamma8 0#8 ≠ .fill c) ∧ (∀ n, Instr.gamma8 0#8 ≠ .setlen n) ∧ (∀ l, Instr.gamma8 0#8 ≠ .setbrt l) ∧
    Instr.gamma8 0#8 ≠ .showFrame :=
  ⟨rfl, fun _ _ => nofun, fun _ => nofun, fun _ => nofun, fun _ => nofun, nofun⟩

theorem witness_EveryOperationDrivesOneResponse : two.transport = .fair ∧ two.seq = none := ⟨rfl, rfl⟩

theorem witness_PureOperationsDependOnConfigurationOnly :
    decode 0x0100FFFFFFFFFF80#64 = .ok (.gamma8 0x80#8) ∧ (0x0100FFFFFFFFFF80#64).toNat / 2 ^ 56 = 0x01 ∧
    decode 0x0800000000FF0804#64 = .ok (.hdq (rgb 0xFF#8 0x08#8 0x04#8)) ∧
    (0x0800000000FF0804#64).toNat / 2 ^ 56 = 0x08 ∧ two.cfg = { Config.reference with n0 := 2#16 } :=
  ⟨rfl, by decide, rfl, by decide, rfl⟩

theorem witness_AbsentStateSilentlyIgnores :
    absent.valid = false ∧ exec (.setbrt 7#8) absent = .next { absent with brt := 8#8, rsps := [0#64] } ∧
    (∀ n, Instr.setbrt 7#8 ≠ .setlen n) := ⟨rfl, rfl, fun _ => nofun⟩

/-- For each operation a word of its row with bits set that it does not name. -/
theorem witness_rows_of_the_opcode_table :
    (0x0100FFFFFFFFFF80#64 &&& 0xFFFF000000000000#64 = 0x0100000000000000#64) ∧
    (0x0200FFFFFFFFFF80#64 &&& 0xFFFF000000000000#64 = 0x0200000000000000#64) ∧
    (0x0300FFFFFFFFFF80#64 &&& 0xFFFF000000000000#64 = 0x0300000000000000#64) ∧
    (0x0400FFFFFFFFFF80#64 &&& 0xFFFF000000000000#64 = 0x0400000000000000#64) ∧
    (0x0500FFFFFFFFFF80#64 &&& 0xFFFF000000000000#64 = 0x0500000000000000#64) ∧
    (0x0600FFFFFFFFFF80#64 &&& 0xFFFF000000000000#64 = 0x0600000000000000#64) ∧
    (0x0800FFFFFFFFFF80#64 &&& 0xFFFF000000000000#64 = 0x0800000000000000#64) ∧
    (0x1000FFFFFFFFFF80#64 &&& 0xFFFF000000000000#64 = 0x1000000000000000#64) ∧
    (0x1100FFFFFFFFFF80#64 &&& 0xFFFF000000000000#64 = 0x1100000000000000#64) ∧
    (0x1200FFFFFFFFFF80#64 &&& 0xFFFF000000000000#64 = 0x1200000000000000#64) ∧
    (0x1300FFFFFFFFFF80#64 &&& 0xFFFF000000000000#64 = 0x1300000000000000#64) ∧
    (0x1400FFFFFFFFFF80#64 &&& 0xFFFF000000000000#64 = 0x1400000000000000#64) ∧
    (0x1500FFFFFFFFFF80#64 &&& 0xFFFF000000000000#64 = 0x1500000000000000#64) ∧
    (0x2000FFFFFFFFFF80#64 &&& 0xFFFF000000000000#64 = 0x2000000000000000#64) := by decide

/-- The largest word whose top byte is 0. -/
theorem witness_Gamma32MapsEachLane : (0x00FFFFFF#32).toNat < 2 ^ 24 := by decide

theorem witness_ExpandResponds :
    two.cfg.expand = [] ∧ rgb 0#8 0#8 0#8 = { r := 0#8, g := 0#8, b := 0#8 } := ⟨rfl, rfl⟩

theorem witness_HdqResponds :
    ∀ cfg : Config,
      cfg = { Config.reference with expand := [(rgb 1#8 2#8 3#8, { r := 1000#16, g := 2000#16, b := 2114#16 })] } →
      cfg.quant = [] ∧ expandAt cfg (rgb 1#8 2#8 3#8) = { r := 1000#16, g := 2000#16, b := 2114#16 } :=
  fun _ h => by subst h; exact ⟨rfl, rfl⟩

/-- The two ends of each range of `m`; no value is in two ranges. -/
theorem witness_LadderLevelByMaximum :
    (65535 = max (65535#16).toNat (max (0#16).toNat (0#16).toNat) ∧ (31711 : Nat) ≤ 65535) ∧
    (31711 = max (0#16).toNat (max (31711#16).toNat (0#16).toNat) ∧ (31711 : Nat) ≤ 31711) ∧
    (31710 = max (0#16).toNat (max (31710#16).toNat (1#16).toNat) ∧ (14799 : Nat) ≤ 31710 ∧ (31710 : Nat) ≤ 31710) ∧
    (14799 = max (0#16).toNat (max (1#16).toNat (14799#16).toNat) ∧ (14799 : Nat) ≤ 14799 ∧ (14799 : Nat) ≤ 31710) ∧
    (14798 = max (14798#16).toNat (max (1#16).toNat (2#16).toNat) ∧ (6343 : Nat) ≤ 14798 ∧ (14798 : Nat) ≤ 14798) ∧
    (6343 = max (6343#16).toNat (max (1#16).toNat (2#16).toNat) ∧ (6343 : Nat) ≤ 6343 ∧ (6343 : Nat) ≤ 14798) ∧
    (6342 = max (6342#16).toNat (max (1#16).toNat (2#16).toNat) ∧ (2115 : Nat) ≤ 6342 ∧ (6342 : Nat) ≤ 6342) ∧
    (2115 = max (2115#16).toNat (max (1#16).toNat (2#16).toNat) ∧ (2115 : Nat) ≤ 2115 ∧ (2115 : Nat) ≤ 6342) ∧
    (2114 = max (2114#16).toNat (max (2114#16).toNat (2114#16).toNat) ∧ (2114 : Nat) ≤ 2114) ∧
    (0 = max (0#16).toNat (max (0#16).toNat (0#16).toNat) ∧ (0 : Nat) ≤ 2114) := by decide

/-- For both statements about the default quantizer, and for R158's: the defaults, an active brightness. -/
theorem witness_DefaultQuantizer :
    two.cfg.quant = [] ∧ two.cfg.expand = [] ∧ two.brt ≠ 0#8 ∧ twoHd.cfg.quant = [] ∧ twoHd.brt ≠ 0#8 :=
  ⟨rfl, rfl, by decide, rfl, by decide⟩

/-- A draw of each value named by the environment; the smallest length, asked of a fair transport; the largest. -/
theorem witness_SetlenReallocates :
    ({ two with allocs := [true] } : State).allocs = true :: [] ∧
    allocOk { two with allocs := [true] } = true ∧ allocOk { two with allocs := [false] } = false ∧
    two.transport = .fair ∧
    (nextOf (exec (.setlen 0#16) { two with allocs := [true] })).valid = true ∧
    (nextOf (exec (.setlen 65535#16) { two with allocs := [true] })).n = 65535#16 := ⟨rfl, rfl, rfl, rfl, rfl, rfl⟩

/-- The last index in range, the first out of range, the absent buffer, and the BGR strip of the example. -/
theorem witness_pixel_index :
    (two.valid = true ∧ (1#16).toNat < two.n.toNat) ∧ ¬ (two.valid = true ∧ (2#16).toNat < two.n.toNat) ∧
    ¬ (absent.valid = true ∧ (0#16).toNat < absent.n.toNat) ∧
    ((strip .bgr false 1#16 0#8 []).valid = true ∧ 0 < (strip .bgr false 1#16 0#8 []).n.toNat ∧
      (strip .bgr false 1#16 0#8 []).cfg.order = .bgr ∧
      exec (.setpix 0#16 (rgb 0x11#8 0x22#8 0x33#8)) (strip .bgr false 1#16 0#8 []) =
        .next { strip .bgr false 1#16 0#8 [(0, 0x33#8), (1, 0x22#8), (2, 0x11#8)] with rsps := [0#64] }) :=
  ⟨by decide, by decide, by decide, rfl, by decide, rfl, rfl⟩

/-- For both statements about FILL. -/
theorem witness_Fill : BlockInv two ∧ two.valid = true ∧ absent.valid = false ∧ bufSize two ≤ 6 :=
  ⟨two_inv, rfl, rfl, by decide⟩

/-- A run of operations between, a SETPIX of the other pixel, a SETBRT, a SHOW and reads among them. -/
theorem witness_PixelRoundTrip :
    two.valid = true ∧ (0#16).toNat < two.n.toNat ∧
    (nextOf (exec (.setpix 0#16 (rgb 1#8 2#8 3#8)) two)).rsps = [0#64] ∧
    (nextOf
        (execAll [.setpix 1#16 (rgb 9#8 9#8 9#8), .setbrt 10#8, .showFrame, .getpix 1#16]
          (nextOf (exec (.setpix 0#16 (rgb 1#8 2#8 3#8)) two)))).rsps = [0#64, 0#64, 0#64, 0#64, 0x00090909#64] :=
  ⟨rfl, by decide, rfl, rfl⟩

/-- Each of the six orders with its last pixel in range. -/
theorem witness_ChannelOrderPlacesBytes :
    ∀ o ∈ [Order.rgb, .rbg, .grb, .gbr, .brg, .bgr],
      (strip o false 2#16 0#8 []).valid = true ∧ (1#16).toNat < (strip o false 2#16 0#8 []).n.toNat := by decide

theorem witness_GetbrtAnswersLogical :
    exec (.setbrt 255#8) two = .next { two with brt := 0#8, rsps := [0#64] } := rfl

/-- The ends of the active range, by stored and by logical value. -/
theorem witness_Scale :
    (1#8 : Byte) ≠ 0#8 ∧ (255#8 : Byte) ≠ 0#8 ∧ (0#8 : Byte) ≠ 255#8 ∧ (254#8 : Byte) ≠ 255#8 := by decide

theorem witness_ShowEmitsFrame :
    (two.valid = true ∧ two.transport = .fair) ∧ (twoHd.valid = true ∧ twoHd.transport = .fair) ∧
    absent.valid = false := ⟨⟨rfl, rfl⟩, ⟨rfl, rfl⟩, rfl⟩

/-- A frame of two end bytes: the first of them has another after it, the second has not. -/
theorem witness_SequencerRows :
    two.transport = .fair ∧ 0 < endBytes two ∧ (2 : Fin 4).val < 3 ∧ 0 + 1 < endBytes two ∧
    ¬ 1 + 1 < endBytes two := ⟨rfl, by decide, by decide, by decide, by decide⟩

/-- The first byte and the last of each part of the frame, one byte more than the frame has; and the transport already
stuck. -/
theorem witness_ShowHangsInTransferThatNeverReturns :
    two.valid = true ∧ frameLength two = 14 ∧
    (∀ k ∈ [0, 1, 4, 5, 12, 13, 14], k ≤ frameLength ({ two with transport := .stuckAfter k } : State)) ∧
    (1 = (0 : Fin 4).val + 1 ∧ 4 = (3 : Fin 4).val + 1) ∧
    (0 < two.n.toNat ∧ 5 = 4 + 4 * 0 + (0 : Fin 4).val + 1) ∧ (1 < two.n.toNat ∧ 12 = 4 + 4 * 1 + (3 : Fin 4).val + 1) ∧
    (0 < endBytes two ∧ 13 = 4 + 4 * two.n.toNat + 0 + 1) ∧ (1 < endBytes two ∧ 14 = 4 + 4 * two.n.toNat + 1 + 1) ∧
    frameLength ({ two with transport := .stuckAfter 15 } : State) < 15 := by
  refine ⟨rfl, rfl, by decide, by decide, by decide, by decide, by decide, by decide, by decide⟩

/-- U1, R165: the transfer that never returns is the third byte of pixel 1, so `SEQ` stays there. -/
theorem test_hang_position :
    (nextOf (exec .showFrame { two with transport := .stuckAfter 11 })).seq = some (.pixel 1 2) := rfl

theorem witness_ShowWritesNoArchitecturalState :
    exec .showFrame absent = .next { absent with rsps := [0#64] } ∧
    (nextOf (exec .showFrame two)).rsps = [0#64] := ⟨rfl, rfl⟩

/-- The last byte of the start frame, the last pixel and its last position, in each mode. -/
theorem witness_frame_layouts :
    two.cfg.hd = false ∧ twoHd.cfg.hd = true ∧ (3 : Nat) < 4 ∧ 1 < two.n.toNat ∧ 1 < twoHd.n.toNat ∧ (2 : Nat) < 3 ∧
    1 < endBytesAt two.cfg two.n ∧ (two.valid = true ∧ two.transport = .fair ∧ two.cfg.endBytes = []) ∧
    absent.valid = false := by
  refine ⟨rfl, rfl, by decide, by decide, by decide, by decide, by decide, ⟨rfl, rfl, rfl⟩, rfl⟩

/-- The bound of the ceiling met with equality. -/
theorem witness_EndBytesIsExactCeiling :
    Config.reference.endBytes = [] ∧ 16 * 1 ≥ (1#16).toNat + 15 ∧ 16 * 4097 ≥ (65535#16).toNat + 15 :=
  ⟨rfl, by decide, by decide⟩

theorem witness_DefaultHeaderByte : Config.reference.hdHeader = [] := rfl

/-- The ends of the two ranges of hues that go to pure red. -/
theorem witness_HueIndexRange :
    (0#16).toNat ≤ 21 ∧ (21#16).toNat ≤ 21 ∧ 65515 ≤ (65515#16).toNat ∧ 65515 ≤ (65535#16).toNat := by decide

/-- Both ends of every row of the hexcone's table; no index is in two rows. -/
theorem witness_HsvWidths :
    (0 ≤ 254 ∧ 254 ≤ 254) ∧ (255 ≤ 255 ∧ 509 ≤ 509) ∧ (510 ≤ 510 ∧ 764 ≤ 764) ∧ (765 ≤ 765 ∧ 1019 ≤ 1019) ∧
    (1020 ≤ 1020 ∧ 1274 ≤ 1274) ∧ (1275 ≤ 1275 ∧ 1529 ≤ 1529) ∧ (255 : Nat) ≤ 255 ∧
    (255, 254, 0) = hexcone 254 ∧ (255, 255, 0) = hexcone 255 ∧ (254, 255, 0) = hexcone 256 ∧
    (0, 255, 1) = hexcone 511 ∧ (255, 0, 1) = hexcone 1529 ∧ (255, 0, 0) = hexcone 1530 := by decide

/-- A hexcone colour at both ends of the hues, and a function that is R183's `t` at given saturation and value. -/
theorem witness_HsvResponds :
    (255, 0, 0) = hexcone (((0#16).toNat * 1530 + 32768) / 65536) ∧
    (255, 0, 0) = hexcone (((65535#16).toNat * 1530 + 32768) / 65536) ∧
    (∀ c, (fun c => (c * ((200#8).toNat + 1) / 256 + (255 - (200#8).toNat)) * ((100#8).toNat + 1)) c =
      (c * ((200#8).toNat + 1) / 256 + (255 - (200#8).toNat)) * ((100#8).toNat + 1)) :=
  ⟨by decide, by decide, fun _ => rfl⟩

end Sys2Proof.Tests
end

section
/-! The state after reset (R31): its fields, and the bytes of a buffer in which nothing is listed. -/

namespace Sys2Proof.Machine

@[simp] theorem resetWith_buf (cfg : Config) (ok : Bool) : (State.resetWith cfg ok).buf = [] := rfl
@[simp] theorem resetWith_n (cfg : Config) (ok : Bool) :
    (State.resetWith cfg ok).n = if ok then cfg.n0 else 0#16 := rfl
@[simp] theorem resetWith_valid (cfg : Config) (ok : Bool) : (State.resetWith cfg ok).valid = ok := rfl
@[simp] theorem resetWith_brt (cfg : Config) (ok : Bool) : (State.resetWith cfg ok).brt = 0x00#8 := rfl
@[simp] theorem resetWith_seq (cfg : Config) (ok : Bool) : (State.resetWith cfg ok).seq = none := rfl
@[simp] theorem resetWith_out (cfg : Config) (ok : Bool) : (State.resetWith cfg ok).out = [] := rfl

/-- A buffer just allocated, with nothing listed, is `0x00` at each of its addresses, whatever its size (R31, R131). -/
theorem bufBytes_of_buf_eq_nil {s : State} (h : s.buf = []) : bufBytes s = List.replicate (bufSize s) 0x00#8 := by
  have hread : Memory.read s.buf = fun _ => 0x00#8 := by
    rw [h]
    exact funext Memory.read_nil
  rw [bufBytes, hread, List.map_const', List.length_range]

/-- The size of the buffer after reset: three bytes for each pixel where the allocation succeeds, else none (R31). -/
theorem bufSize_resetWith (cfg : Config) (ok : Bool) :
    bufSize (State.resetWith cfg ok) = if ok then 3 * cfg.n0.toNat else 0 := by
  cases ok with
  | false => rfl
  | true => rfl

/-- Settles O11: the registers are what `State.resetWith` puts there, and the buffer lists nothing, so each of its bytes
reads `0x00` and there are as many of them as the drawn bit says. -/
theorem resetValues : Obligations.ResetValues := by
  intro cfg ok
  have hbuf := bufBytes_of_buf_eq_nil (resetWith_buf cfg ok)
  rw [bufSize_resetWith] at hbuf
  exact ⟨resetWith_valid cfg ok, resetWith_n cfg ok, hbuf, resetWith_brt cfg ok, resetWith_seq cfg ok,
    resetWith_out cfg ok⟩

end Sys2Proof.Machine
end

section
/-! The pseudo-operations (R74): each fits its fields exactly when the line it expands to does, and stands for the same
operation. -/

namespace Sys2Proof

/-- What the assembler makes of a line is settled by whether its numbers fit and by the operation it stands for. -/
theorem assemble_congr {l k : Line} (hfit : l.wellFormed = k.wellFormed) (hinstr : lineInstr l = lineInstr k) :
    assemble l = assemble k := by
  rw [assemble, assemble, hfit, hinstr]

/-- Three bytes placed side by side are a 24-bit number, as `SETPIX i, rgb` asks of its colour (R73). -/
theorem shiftedBytes_lt {r g b : Nat} (hr : r < 2 ^ 8) (hg : g < 2 ^ 8) (hb : b < 2 ^ 8) :
    (r <<< 16) ||| (g <<< 8) ||| b < 2 ^ 24 := by
  have hred : r <<< 16 < 2 ^ 24 := Nat.shiftLeft_lt hr
  have hgreen : g <<< 8 < 2 ^ 24 := (Nat.shiftLeft_lt hg).trans (by decide)
  have hblue : b < 2 ^ 24 := hb.trans (by decide)
  exact Nat.or_lt_two_pow (Nat.or_lt_two_pow hred hgreen) hblue

theorem wellFormed_hsvHueSat (hue sat : Nat) :
    (Line.hsvHueSat hue sat).wellFormed = (Line.hsv hue sat 255).wellFormed := by
  simp [Line.wellFormed]

theorem wellFormed_hsvHue (hue : Nat) :
    (Line.hsvHue hue).wellFormed = (Line.hsv hue 255 255).wellFormed := by
  simp [Line.wellFormed]

/-- With byte operands only the pixel index can be too large for its field, in the pseudo-operation and in its
expansion alike. -/
theorem wellFormed_setpixBytes (i : Nat) {r g b : Nat} (hr : r < 2 ^ 8) (hg : g < 2 ^ 8) (hb : b < 2 ^ 8) :
    (Line.setpixBytes i r g b).wellFormed = (Line.setpix i ((r <<< 16) ||| (g <<< 8) ||| b)).wellFormed := by
  have hcolour := shiftedBytes_lt hr hg hb
  simp [Line.wellFormed, hr, hg, hb, hcolour, -Nat.reducePow]

/-- Settles O6: line by line, the pseudo-operation and its expansion stand for the same operation by the assembler's own
table, and their numbers fit together: 255 fits a byte field, and three byte operands fit the 24-bit colour. -/
theorem pseudoOperationsExpand : Obligations.PseudoOperationsExpand :=
  ⟨assemble_congr rfl rfl,
    fun hue => assemble_congr (wellFormed_hsvHue hue) rfl,
    fun hue sat => assemble_congr (wellFormed_hsvHueSat hue sat) rfl,
    fun i _ _ _ hr hg hb => assemble_congr (wellFormed_setpixBytes i hr hg hb) rfl⟩

end Sys2Proof
end

section
/-! A row of the opcode table against the decoder (R68, R70): a word that a row matches decodes to the row's operation, each
operand read from its field. -/

namespace Sys2Proof

open Sys2Proof.Machine

/-- The kind of operation `i` with the operands that the word `w` holds, each in its own field (R68). -/
def withOperandsOf (w : Word) : Instr → Instr
  | .gamma8 _ => .gamma8 (dByte w)
  | .gamma16 _ => .gamma16 (dByte w)
  | .gamma32 _ => .gamma32 (dField w)
  | .expand _ => .expand (dRgb w)
  | .sine8 _ => .sine8 (dByte w)
  | .hsv _ _ _ => .hsv (aField w) (dHighByte w) (dByte w)
  | .hdq _ => .hdq (dRgb w)
  | .setlen _ => .setlen (aField w)
  | .setpix _ _ => .setpix (aField w) (dRgb w)
  | .getpix _ => .getpix (aField w)
  | .fill _ => .fill (dRgb w)
  | .setbrt _ => .setbrt (dByte w)
  | .getbrt => .getbrt
  | .showFrame => .showFrame

/-- A row's `match` is the row's opcode with every other field 0 (R70). -/
theorem rowMatch_eq_commandWord (i : Instr) : Laws.RowMatch.rowMatch i = commandWord (opcodeOf i) 0#8 0#16 0#32 := by
  apply BitVec.eq_of_toNat_eq
  rw [toNat_commandWord]
  cases i <;> simp [Laws.RowMatch.rowMatch, opcodeOf]

/-- With `rsv` 0 and the opcode of an operation, a word decodes to that operation with the word's own operands. -/
theorem decode_of_fields {w : Word} (i : Instr) (hop : opField w = opcodeOf i) (hrsv : rsvField w = 0#8) :
    decode w = .ok (withOperandsOf w i) := by
  rw [decode, if_neg (not_not_intro hrsv), hop]
  cases i <;> rfl

/-- A word that the row of `i` matches under the table's mask decodes to the row's operation (R70). -/
theorem decode_of_rowMatch {w : Word} (i : Instr) (h : w &&& 0xFFFF000000000000#64 = Laws.RowMatch.rowMatch i) :
    decode w = .ok (withOperandsOf w i) := by
  obtain ⟨hop, hrsv⟩ := fields_of_match (h.trans (rowMatch_eq_commandWord i))
  exact decode_of_fields i hop hrsv

/-- `op` as a number: what stands above the low 56 bits of the word (R67). -/
theorem toNat_opField (w : Word) : (opField w).toNat = w.toNat / 2 ^ 56 := by
  rw [opField, BitVec.extractLsb'_toNat, Nat.shiftRight_eq_div_pow]
  have := w.isLt
  omega

end Sys2Proof
end

section
/-! The pure operations (R99, R123, R180): each answers one response word that the configuration fixes, and writes nothing
else. -/

namespace Sys2Proof.Machine

/-- The response of a pure operation under a configuration; none for the operations that read or write the state. -/
def pureResponse (cfg : Config) : Instr → Option Word
  | .gamma8 x => some (rspByte (gamma8At cfg x))
  | .gamma16 x => some (rspHalf (gamma16At cfg x))
  | .gamma32 c => some (rspPacked (gamma32Of cfg c))
  | .expand c => some (rspRgb16 (expandAt cfg c))
  | .sine8 x => some (rspByte (sine8At cfg x))
  | .hsv hue sat val => some (rspPacked (packRgb (hsvColour hue sat val)))
  | .hdq c => some (rspHd (quantAt cfg c))
  | .setlen _ | .setpix _ _ | .getpix _ | .fill _ | .setbrt _ | .getbrt | .showFrame => none

/-- A pure operation drives its response and leaves every other field of the state as it was. -/
theorem exec_of_pureResponse {i : Instr} {s : State} {z : Word} (h : pureResponse s.cfg i = some z) :
    exec i s = .next { s with rsps := s.rsps ++ [z] } := by
  cases i with
  | gamma8 | gamma16 | gamma32 | expand | sine8 | hsv | hdq => cases h; rfl
  | setlen | setpix | getpix | fill | setbrt | getbrt | showFrame => cases h

/-- The operations with one of the seven opcodes of R99, R123 and R180 are pure, under every configuration. -/
theorem exists_pureResponse {i : Instr} (h : (opcodeOf i).toNat ∈ [0x01, 0x02, 0x03, 0x04, 0x05, 0x06, 0x08])
    (cfg : Config) : ∃ z, pureResponse cfg i = some z := by
  cases i with
  | gamma8 | gamma16 | gamma32 | expand | sine8 | hsv | hdq => exact ⟨_, rfl⟩
  | setlen | setpix | getpix | fill | setbrt | getbrt | showFrame => simp [opcodeOf] at h

/-- Settles O18: a decoded word's opcode is its operation's, so the operation is one of the pure ones, and its response is
the one the configuration fixes. -/
theorem pureOperationsDependOnConfigurationOnly : Obligations.PureOperationsDependOnConfigurationOnly := by
  intro w i hdecode hopcode cfg
  obtain ⟨-, hop, -⟩ := decode_ok hdecode
  rw [← toNat_opField, hop] at hopcode
  obtain ⟨z, hz⟩ := exists_pureResponse hopcode cfg
  refine ⟨z, fun s hcfg => exec_of_pureResponse ?_⟩
  rw [hcfg]
  exact hz

end Sys2Proof.Machine
end

section
/-! The gamma table operations (R94 to R97): what the lanes of GAMMA32 and the channels of the default EXPAND come to, and
the four operations. -/

namespace Sys2Proof.Machine

/-- Settles O20: the row decodes to GAMMA8 of the word's low byte, and the response is the entry, zero extended; entry 0
is 0 by R91. -/
theorem gamma8Responds : Obligations.Gamma8Responds := by
  refine ⟨fun w h => ?_, fun x s => ⟨rspByte (gamma8At s.cfg x), exec_of_pureResponse rfl, toNat_rspByte _, ?_⟩⟩
  · rw [decode_of_rowMatch (.gamma8 0#8) h, withOperandsOf, dByte_eq]
  · rintro rfl
    rw [gamma8At_zero]
    rfl

/-- Settles O21: as for GAMMA8, with the two entries R93 constrains under the default `EXPAND`, and the given entries as
they stand where `EXPAND` is replaced (U7). -/
theorem gamma16Responds : Obligations.Gamma16Responds := by
  refine ⟨fun w h => ?_, fun x s =>
    ⟨rspHalf (gamma16At s.cfg x), exec_of_pureResponse rfl, toNat_rspHalf _, ?_, ?_, ?_⟩⟩
  · rw [decode_of_rowMatch (.gamma16 0#8) h, withOperandsOf, dByte_eq]
  · rintro hdefault rfl
    rw [gamma16At_zero hdefault]
    rfl
  · rintro hdefault rfl
    rw [toNat_rspHalf]
    exact ⟨gamma16At_last hdefault, Nat.le_of_lt_succ (gamma16At s.cfg 255#8).isLt⟩
  · intro hreplaced v hgiven
    rw [toNat_rspHalf, gamma16At_replaced hreplaced, paramAt_of_lookup hgiven]

/-- The top lane of a packed word below 2^24 is 0. -/
theorem topLane_eq_zero {c : Packed} (h : c.toNat < 2 ^ 24) : c.extractLsb' 24 8 = 0#8 := by
  apply BitVec.eq_of_toNat_eq
  rw [BitVec.extractLsb'_toNat, Nat.shiftRight_eq_div_pow, Nat.div_eq_of_lt h]
  rfl

/-- A packed colour keeps its top byte 0 through GAMMA32, for entry 0 of the table is 0 (R96, R91). -/
theorem gamma32Of_lt {c : Packed} (h : c.toNat < 2 ^ 24) (cfg : Config) : (gamma32Of cfg c).toNat < 2 ^ 24 := by
  rw [toNat_gamma32Of, topLane_eq_zero h, gamma8At_zero, BitVec.toNat_zero]
  omega

/-- Settles O22: the response is the four lanes side by side, and a top byte 0 goes to entry 0 of the table, which
is 0. -/
theorem gamma32MapsEachLane : Obligations.Gamma32MapsEachLane := by
  refine ⟨fun w h => decode_of_rowMatch (.gamma32 0#32) h, fun c s =>
    ⟨rspPacked (gamma32Of s.cfg c), exec_of_pureResponse rfl, ?_, fun hc => ?_⟩⟩
  · rw [toNat_rspPacked, toNat_gamma32Of]
  · rw [toNat_rspPacked]
    exact gamma32Of_lt hc s.cfg

/-- With `EXPAND` not replaced the configured function is the default one (R97). -/
theorem expandAt_default {cfg : Config} (h : cfg.expand = []) (c : Rgb) : expandAt cfg c = expandDefault cfg c := by
  rw [expandAt, h, paramAt_nil]

/-- Under the default `EXPAND` black expands to black, for entry 0 of `GAMMA16` is 0 (R97, R93). -/
theorem expandAt_black {cfg : Config} (h : cfg.expand = []) :
    expandAt cfg { r := 0#8, g := 0#8, b := 0#8 } = { r := 0#16, g := 0#16, b := 0#16 } := by
  rw [expandAt_default h, expandDefault, gamma16At_zero h]

/-- Settles O23: the response is the three channels of the configured expansion side by side; where that is the default,
each channel is the entry of its own byte. -/
theorem expandResponds : Obligations.ExpandResponds := by
  refine ⟨fun w h => ?_, fun c s =>
    ⟨rspRgb16 (expandAt s.cfg c), exec_of_pureResponse rfl, toNat_rspRgb16 _, fun hdefault => ⟨?_, ?_⟩⟩⟩
  · rw [decode_of_rowMatch (.expand { r := 0#8, g := 0#8, b := 0#8 }) h, withOperandsOf, dRgb_eq]
  · rw [toNat_rspRgb16, expandAt_default hdefault, expandDefault]
  · rintro rfl
    rw [expandAt_black hdefault]
    rfl

end Sys2Proof.Machine
end

section
/-! HDQ (R123): the default quantizer on a given expansion, and the operation. -/

namespace Sys2Proof.Machine

/-- With `QUANT` not replaced the configured function is the six steps on the expanded triple (R111, R112). -/
theorem quantAt_default {cfg : Config} (h : cfg.quant = []) (c : Rgb) :
    quantAt cfg c = quantizeExpanded c (expandAt cfg c) := by
  rw [quantAt, h, paramAt_nil, quantDefault]

/-- The boundary correction changes a high byte only where it is 254 (R116); any other is the mantissa, whatever the
8-bit input. -/
theorem mantissa_of_highByte_ne (x : Byte) {s : Nat} (hs : s < 2 ^ 16) (hne : s / 256 ≠ 254) :
    mantissa x s = BitVec.ofNat 8 (s / 256) := by
  apply BitVec.eq_of_toNat_eq
  rw [toNat_mantissa x hs, BitVec.toNat_ofNat]
  split <;> omega

/-- The worked example of R123: the ladder ends at power 1, and no high byte is 254, so the 8-bit input does not matter. -/
theorem quantizeExpanded_example (c : Rgb) :
    quantizeExpanded c { r := 1000#16, g := 2000#16, b := 2114#16 } =
      { r := 0x79#8, g := 0xF2#8, b := 0xFF#8, power := 1#5 } := by
  have hlevel : ladder { r := 1000#16, g := 2000#16, b := 2114#16 } = { power := 1#5, num := 9765, den := 315 } := by
    decide
  have hr : mantissa c.r 31000 = 0x79#8 := mantissa_of_highByte_ne c.r (by decide) (by decide)
  have hg : mantissa c.g 62000 = 0xF2#8 := mantissa_of_highByte_ne c.g (by decide) (by decide)
  have hb : mantissa c.b 65534 = 0xFF#8 := mantissa_of_highByte_ne c.b (by decide) (by decide)
  simp [quantizeExpanded, hlevel, rescale, hr, hg, hb]

/-- Settles O25: the row decodes to HDQ of the word's colour, the response is the HD tuple of the configured quantizer,
and the example's tuple is that of its expanded triple. -/
theorem hdqResponds : Obligations.HdqResponds := by
  refine ⟨fun w h => ?_, fun c s =>
    ⟨rspHd (quantAt s.cfg c), exec_of_pureResponse rfl, toNat_rspHd _, fun hdefault hexpand => ?_⟩⟩
  · rw [decode_of_rowMatch (.hdq { r := 0#8, g := 0#8, b := 0#8 }) h, withOperandsOf, dRgb_eq]
  · rw [quantAt_default hdefault, hexpand, quantizeExpanded_example]
    rfl

end Sys2Proof.Machine
end

section
/-! Brightness (R62, R137 to R139): the stored and the logical value as inverses, and the scaling by either. -/

namespace Sys2Proof.Machine

/-- Reading the logical brightness undoes storing it (R62). -/
theorem logicalOfStored_storedOfLogical (l : Byte) : logicalOfStored (storedOfLogical l) = l := by
  apply BitVec.eq_of_toNat_eq
  rw [toNat_logicalOfStored, toNat_storedOfLogical]
  omega

/-- Below 255 the stored brightness is the logical one plus 1, with no wrap to the sentinel (R62). -/
theorem toNat_storedOfLogical_of_ne {l : Byte} (h : l ≠ 255#8) : (storedOfLogical l).toNat = l.toNat + 1 := by
  have hne : l.toNat ≠ 255 := fun e => h (BitVec.eq_of_toNat_eq e)
  rw [toNat_storedOfLogical]
  omega

/-- Only logical 255 is stored as the sentinel 0 (R62). -/
theorem storedOfLogical_ne_zero {l : Byte} (h : l ≠ 255#8) : storedOfLogical l ≠ 0#8 := by
  intro e
  have hstored := toNat_storedOfLogical_of_ne h
  rw [e, BitVec.toNat_zero] at hstored
  omega

/-- Under the stored value 1 every byte scales to 0 (R137). -/
theorem scale8_one (v : Byte) : scale8 v 1#8 = 0#8 := by
  apply BitVec.eq_of_toNat_eq
  rw [toNat_scale8 v (by decide), BitVec.toNat_zero, show (1#8 : Byte).toNat = 1 from rfl, Nat.mul_one]
  exact Nat.div_eq_of_lt v.isLt

theorem exec_setbrt (l : Byte) (s : State) :
    exec (.setbrt l) s = .next { s with brt := storedOfLogical l, rsps := s.rsps ++ [0#64] } := rfl

theorem exec_getbrt (s : State) :
    exec .getbrt s = .next { s with rsps := s.rsps ++ [rspByte (logicalOfStored s.brt)] } := rfl

/-- Settles O37: the row decodes to SETBRT of the word's low byte, which is stored as `storedOfLogical`; logical 0 is
stored as 1, under which every byte scales to 0. -/
theorem setbrtStores : Obligations.SetbrtStores := by
  refine ⟨fun w h => ?_, fun l s => ⟨storedOfLogical l, exec_setbrt l s, toNat_storedOfLogical l, ?_, ?_⟩⟩
  · rw [decode_of_rowMatch (.setbrt 0#8) h, withOperandsOf, dByte_eq]
  · rintro rfl
    rfl
  · rintro rfl v
    exact scale8_one v

/-- Settles O38: the response is `logicalOfStored` of `BRT`, which undoes SETBRT's storing; the 0 that reset leaves in
`BRT` reads as 255. -/
theorem getbrtAnswersLogical : Obligations.GetbrtAnswersLogical := by
  refine ⟨fun w h => decode_of_rowMatch .getbrt h, fun s => ⟨_, exec_getbrt s, ?_⟩, fun l s t hset => ?_,
    fun cfg ok => exec_getbrt (State.resetWith cfg ok)⟩
  · rw [toNat_rspByte, toNat_logicalOfStored]
  · rw [exec_setbrt] at hset
    obtain rfl := Host.Outcome.next.inj hset
    refine ⟨_, exec_getbrt _, ?_⟩
    rw [toNat_rspByte, logicalOfStored_storedOfLogical]

/-- Settles O39: the active product is `toNat_scale8`; a logical value below 255 is active and stored as one more. -/
theorem scaleIsFixedPointProduct : Obligations.ScaleIsFixedPointProduct := by
  refine ⟨fun b => if_pos rfl, fun b s hs => toNat_scale8 b hs, fun b l hl => ?_, by decide⟩
  rw [toNat_scale8 b (storedOfLogical_ne_zero hl), toNat_storedOfLogical_of_ne hl]

end Sys2Proof.Machine
end

section
/-! SETPIX and GETPIX (R132, R133): each by whether its index is in range, and the bytes of the one pixel. -/

namespace Sys2Proof.Machine

theorem exec_setpix_inRange {s : State} {i : Half} (hvalid : s.valid = true) (hi : i.toNat < s.n.toNat) (c : Rgb) :
    exec (.setpix i c) s = .next (respond (writePixel s i.toNat c) 0#64) :=
  execSetpix_inRange ((inRange_iff s i).2 ⟨hvalid, hi⟩) c

theorem exec_setpix_outOfRange {s : State} {i : Half} (h : ¬ (s.valid = true ∧ i.toNat < s.n.toNat)) (c : Rgb) :
    exec (.setpix i c) s = .next { s with rsps := s.rsps ++ [0#64] } :=
  execSetpix_outOfRange (mt (inRange_iff s i).1 h) c

theorem exec_getpix_inRange {s : State} {i : Half} (hvalid : s.valid = true) (hi : i.toNat < s.n.toNat) :
    exec (.getpix i) s = .next { s with rsps := s.rsps ++ [rspPacked (packRgb (readPixel s i.toNat))] } :=
  execGetpix_inRange ((inRange_iff s i).2 ⟨hvalid, hi⟩)

theorem exec_getpix_outOfRange {s : State} {i : Half} (h : ¬ (s.valid = true ∧ i.toNat < s.n.toNat)) :
    exec (.getpix i) s = .next { s with rsps := s.rsps ++ [0#64] } :=
  execGetpix_outOfRange (mt (inRange_iff s i).1 h)

/-- The three channel addresses of a pixel just written hold the three bytes of its colour (R132). -/
theorem read_writePixel_channels (s : State) (i : Nat) (c : Rgb) :
    Memory.read (writePixel s i c).buf (3 * i + chanOffset s.cfg.order .red) = c.r ∧
    Memory.read (writePixel s i c).buf (3 * i + chanOffset s.cfg.order .green) = c.g ∧
    Memory.read (writePixel s i c).buf (3 * i + chanOffset s.cfg.order .blue) = c.b := by
  have h := readPixel_writePixel_same s i c
  exact ⟨congrArg Rgb.r h, congrArg Rgb.g h, congrArg Rgb.b h⟩

/-- An address that is none of a pixel's three channel addresses reads as before the pixel was written (R132). -/
theorem read_writePixel_of_ne (s : State) (i : Nat) (c : Rgb) {a : Nat} (hr : a ≠ pixelAddr s.cfg.order i .red)
    (hg : a ≠ pixelAddr s.cfg.order i .green) (hb : a ≠ pixelAddr s.cfg.order i .blue) :
    Memory.read (writePixel s i c).buf a = Memory.read s.buf a := by
  rw [writePixel_buf, Memory.read_write, if_neg hb, Memory.read_write, if_neg hg, Memory.read_write, if_neg hr]

@[simp] theorem readPixel_respond (s : State) (w : Word) (i : Nat) : readPixel (respond s w) i = readPixel s i := rfl

/-- GETPIX of the pixel that SETPIX has just written answers its colour (R133). -/
theorem exec_getpix_of_setpix {s t : State} {i : Half} {c : Rgb} (hvalid : s.valid = true) (hi : i.toNat < s.n.toNat)
    (hset : exec (.setpix i c) s = .next t) :
    exec (.getpix i) t = .next { t with rsps := t.rsps ++ [rspPacked (packRgb c)] } := by
  rw [exec_setpix_inRange hvalid hi] at hset
  obtain rfl := Host.Outcome.next.inj hset
  rw [exec_getpix_inRange (s := respond (writePixel s i.toNat c) 0#64) hvalid hi, readPixel_respond,
    readPixel_writePixel_same]

/-- The response that packs a colour is below 2^24: the top byte is 0 (R61). -/
theorem toNat_rspPacked_packRgb_lt (c : Rgb) : (rspPacked (packRgb c)).toNat < 2 ^ 24 := by
  rw [toNat_rspPacked, toNat_packRgb]
  omega

/-- Settles O31: in range the three bytes are `writePixel`'s, out of range nothing is written; the example's bytes stand
at the offsets 2, 1 and 0 that BGR gives red, green and blue. -/
theorem setpixWritesThreeBytes : Obligations.SetpixWritesThreeBytes := by
  refine ⟨fun w h => ?_, fun i c s hvalid hi => ?_, fun i c s h => exec_setpix_outOfRange h c,
    fun s hvalid hn horder => ?_⟩
  · rw [decode_of_rowMatch (.setpix 0#16 { r := 0#8, g := 0#8, b := 0#8 }) h, withOperandsOf, dRgb_eq, aField]
  · obtain ⟨hred, hgreen, hblue⟩ := read_writePixel_channels s i.toNat c
    exact ⟨(writePixel s i.toNat c).buf, exec_setpix_inRange hvalid hi c, hred, hgreen, hblue,
      fun _ => read_writePixel_of_ne s i.toNat c⟩
  · have hbytes := read_writePixel_channels s 0 { r := 0x11#8, g := 0x22#8, b := 0x33#8 }
    rw [horder] at hbytes
    obtain ⟨hred, hgreen, hblue⟩ := hbytes
    exact ⟨_, exec_setpix_inRange (i := 0#16) hvalid hn _, hblue, hgreen, hred⟩

/-- Settles O32: in range the response packs the stored colour of the pixel, else it is the sentinel; the example reads
back what SETPIX has just written. -/
theorem getpixAnswersStoredBytes : Obligations.GetpixAnswersStoredBytes := by
  refine ⟨fun w h => decode_of_rowMatch (.getpix 0#16) h, fun i s => ?_, fun s t hvalid hn _ hset => ?_⟩
  · by_cases h : s.valid = true ∧ i.toNat < s.n.toNat
    · obtain ⟨hvalid, hi⟩ := h
      refine ⟨_, exec_getpix_inRange hvalid hi, toNat_rspPacked_packRgb_lt _, fun _ _ => ?_,
        fun hout => absurd ⟨hvalid, hi⟩ hout⟩
      rw [toNat_rspPacked, toNat_packRgb]
      rfl
    · exact ⟨_, exec_getpix_outOfRange h, by decide, fun hvalid hi => absurd ⟨hvalid, hi⟩ h, fun _ => rfl⟩
  · exact exec_getpix_of_setpix (i := 0#16) hvalid hn hset

end Sys2Proof.Machine
end

section
/-! SHOW with the buffer absent, and with it present and a transport that returns (R152, R153, R165). -/

namespace Sys2Proof.Machine

theorem exec_showFrame (s : State) : exec .showFrame s = execShow s := rfl

theorem exec_showFrame_absent {s : State} (h : s.valid = false) :
    exec .showFrame s = .next { s with rsps := s.rsps ++ [0#64] } := by
  rw [exec_showFrame, execShow, if_neg (by simp [h])]
  rfl

/-- SHOW accepted is a SHOW in progress with no byte handed over yet (R165). -/
theorem showing_zero (s : State) : showing s 0 s.transport = { s with seq := some (.start 0) } := by
  rw [showing, List.take_zero, List.append_nil]
  rfl

theorem exec_showFrame_fair {s : State} (hvalid : s.valid = true) (hfair : s.transport = .fair) :
    exec .showFrame s = .next (shown s .fair) := by
  have hpos : 0 < frameLength s := by rw [frameLength]; omega
  have hrun : runSeq (frameLength s) { s with seq := some (.start 0) } = shown s .fair := by
    rw [← showing_zero, hfair]
    exact runSeq_showing_fair s (frameLength s) 0 hpos (by omega)
  rw [exec_showFrame, execShow, if_pos hvalid, hrun]

/-- The frame of no pixels is the start frame and the end frame (R152). -/
theorem frame_of_n_eq_zero {s : State} (h : s.n = 0#16) :
    frame s = List.replicate 4 0x00#8 ++ List.replicate (endBytesAt s.cfg 0#16) 0xFF#8 := by
  rw [frame, endBytes, h]
  rfl

end Sys2Proof.Machine
end

section
/-! SETLEN (R131): the state it leaves for either value of the drawn bit. -/

namespace Sys2Proof.Machine

/-- The state SETLEN of `n` leaves where the drawn bit is `ok`. -/
def afterSetlen (s : State) (ok : Bool) (n : Half) : State := respond (allocate (afterDraw s) ok n) 0#64

theorem exec_setlen (n : Half) (s : State) : exec (.setlen n) s = .next (afterSetlen s (allocOk s) n) := rfl

/-- A buffer just allocated holds zero bytes only, three for each pixel (R131). -/
theorem bufBytes_afterSetlen (s : State) (ok : Bool) (n : Half) :
    bufBytes (afterSetlen s ok n) = List.replicate (3 * (if ok then n else 0#16).toNat) 0x00#8 :=
  bufBytes_of_buf_eq_nil rfl

/-- SETLEN 0 that allocates leaves a buffer that SHOW emits as the start frame and the end frame (R131). -/
theorem exec_showFrame_afterSetlen_zero {s : State} (hfair : s.transport = .fair) :
    ∃ u, exec .showFrame (afterSetlen s true 0#16) = .next u ∧
      u.out = s.out ++ [0x00#8, 0x00#8, 0x00#8, 0x00#8] ++ List.replicate (endBytesAt s.cfg 0#16) 0xFF#8 := by
  refine ⟨_, exec_showFrame_fair rfl hfair, ?_⟩
  change s.out ++ frame (afterSetlen s true 0#16) = _
  rw [frame_of_n_eq_zero rfl, ← List.append_assoc]
  rfl

/-- Settles O30: the drawn bit decides which of the two states SETLEN leaves; in both the new buffer lists nothing, and
in the absent one GETPIX is out of range at every index and SHOW makes no transport call. -/
theorem setlenReallocates : Obligations.SetlenReallocates := by
  refine ⟨fun w h => decode_of_rowMatch (.setlen 0#16) h, fun n s =>
    ⟨allocOk s, fun _ _ => allocOk_named, afterSetlen s (allocOk s) n, exec_setlen n s, rfl, ?_, ?_, Memory.read_nil,
      ?_⟩⟩
  · intro hok
    rw [hok]
    exact ⟨rfl, rfl, bufBytes_afterSetlen s true n⟩
  · intro hok
    rw [hok]
    have habsent : (afterSetlen s false n).valid = false := rfl
    exact ⟨habsent, rfl, bufBytes_afterSetlen s false n, fun i => exec_getpix_outOfRange (by simp [habsent]),
      exec_showFrame_absent habsent⟩
  · rintro hok rfl hfair
    rw [hok]
    exact exec_showFrame_afterSetlen_zero hfair

end Sys2Proof.Machine
end

section
/-! The frame encoder's frame (R155, R160 to R162): the default end frame, the bytes of a pixel in standard mode, and how
many bytes a SHOW emits. -/

namespace Sys2Proof.Machine

/-- With `END_BYTES` not replaced the end frame has `floor((N+30)/16)` bytes (R160). -/
theorem endBytesAt_default {cfg : Config} (h : cfg.endBytes = []) (n : Half) : endBytesAt cfg n = (n.toNat + 30) / 16 := by
  rw [endBytesAt, h, paramAt_nil, endBytesDefault]

/-- Settles O48: `floor((N+30)/16)` is the exact ceiling of `(N+15)/16`, a fact of linear arithmetic at every `N`. -/
theorem endBytesIsExactCeiling : Obligations.EndBytesIsExactCeiling := by
  intro cfg n hdefault
  rw [endBytesAt_default hdefault]
  exact ⟨rfl, by omega, fun e he => by omega, by omega, by omega⟩

theorem quad_standard {s : State} (h : s.cfg.hd = false) (i : Nat) : quad s i = standardQuad s i := by
  rw [quad, if_neg (by simp [h])]

/-- A standard quad opens with the marker (R155). -/
theorem standardQuad_marker (s : State) (i : Nat) : (standardQuad s i)[0]? = some 0xFF#8 := rfl

/-- After its marker a standard quad holds the scaled bytes in buffer position order (R155). -/
theorem standardQuad_scaledByte (s : State) (i : Nat) {p : Nat} (hp : p < 3) :
    (standardQuad s i)[p + 1]? = some (scaledByte s (3 * i + p)) := by
  match p, hp with
  | 0, _ => rfl
  | 1, _ => rfl
  | 2, _ => rfl

/-- Settles O45: pixel `i` stands in the frame as its standard quad, whose byte 0 is the marker and whose byte `p + 1` is
the scaled byte at position `p`. -/
theorem standardFrameLayout : Obligations.StandardFrameLayout := by
  intro s hstandard
  refine ⟨fun k hk => frame_start s hk, fun i hi => ⟨?_, fun p hp => ?_⟩⟩
  · rw [← standardQuad_marker s i, ← quad_standard hstandard]
    exact frame_pixel s (k := 0) hi (by decide)
  · have hbyte := frame_pixel s hi (show p + 1 < 4 by omega)
    rw [quad_standard hstandard, standardQuad_scaledByte s i hp] at hbyte
    rw [show 4 + 4 * i + 1 + p = 4 + 4 * i + (p + 1) by omega]
    exact hbyte

/-- A SHOW that has ended has put one frame's bytes after those that were out before (R161). -/
theorem length_out_shown (s : State) (tr : Transport) :
    (shown s tr).out.length = s.out.length + (4 + 4 * s.n.toNat + endBytesAt s.cfg s.n) := by
  rw [shown, List.length_append, frame_length, frameLength, endBytes]

/-- Settles O47: the length and the end bytes are the frame's own; a SHOW whose transport returns emits the whole frame,
and with the buffer absent it leaves `OUT` as it was. -/
theorem frameLengthAndEnd : Obligations.FrameLengthAndEnd := by
  refine ⟨fun s => ⟨frame_length s, fun j hj => frame_end s hj⟩, fun s hvalid hfair => ?_, fun s habsent => ?_⟩
  · refine ⟨shown s .fair, exec_showFrame_fair hvalid hfair, length_out_shown s .fair, fun hdefault => ?_⟩
    rw [length_out_shown, endBytesAt_default hdefault]
  · exact ⟨_, exec_showFrame_absent habsent, rfl⟩

end Sys2Proof.Machine
end

section
/-! What a SHOW can do, whatever the transport does (R153, R164, R166), and the absent buffer (R191 to R194). -/

namespace Sys2Proof.Machine

/-- A SHOW that has handed over the first `k` bytes of its frame and waits in a `transfer` that never returns (R166). -/
def stuckShow (s : State) (q : SeqState) (k : Nat) : State :=
  { s with seq := some q, out := s.out ++ (frame s).take k, transport := .stuckAfter 0 }

/-- Where the first `transfer` of a SHOW never returns and its byte is not taken, nothing but `SEQ` has moved (R166). -/
theorem exec_showFrame_stuck_zero {s : State} (hvalid : s.valid = true) (hstuck : s.transport = .stuckAfter 0) :
    exec .showFrame s = .next (stuckShow s (.start 0) 0) := by
  have hstart : { s with seq := some (.start 0) } = stuckShow s (.start 0) 0 := by
    rw [stuckShow, List.take_zero, List.append_nil, ← hstuck]
  rw [exec_showFrame, execShow, if_pos hvalid, hstart, runSeq_hung rfl]

/-- Where the transport takes `k + 1` bytes and never returns from the last, a SHOW whose frame has as many bytes is stuck
in that one's `transfer`; a shorter frame is emitted whole (R166). -/
theorem exec_showFrame_stuck_succ {s : State} {k : Nat} (hvalid : s.valid = true)
    (hstuck : s.transport = .stuckAfter (k + 1)) :
    (k < frameLength s → ∃ q, seqAt s k = some q ∧ exec .showFrame s = .next (stuckShow s q (k + 1))) ∧
    (frameLength s ≤ k → exec .showFrame s = .next (shown s (.stuckAfter (k + 1 - frameLength s)))) := by
  have hpos : 0 < frameLength s := by rw [frameLength]; omega
  obtain ⟨hinside, hbeyond⟩ := runSeq_showing_stuck s (frameLength s) 0 k hpos (by omega)
  rw [← hstuck, showing_zero, Nat.zero_add] at hinside hbeyond
  rw [exec_showFrame, execShow, if_pos hvalid]
  refine ⟨fun h => ?_, fun h => congrArg _ (hbeyond h)⟩
  obtain ⟨q, hq, hrun⟩ := hinside h
  exact ⟨q, hq, congrArg _ hrun⟩

/-- All a SHOW can do: with the buffer absent it only responds; with it present it has ended or is stuck (R153, R166). -/
theorem exec_showFrame_cases {s t : State} (h : exec .showFrame s = .next t) :
    (s.valid = false ∧ t = { s with rsps := s.rsps ++ [0#64] }) ∨
    (s.valid = true ∧ ((∃ tr, t = shown s tr) ∨ ∃ q k, t = stuckShow s q k)) := by
  by_cases hvalid : s.valid = true
  case neg =>
    have habsent : s.valid = false := by simpa using hvalid
    rw [exec_showFrame_absent habsent] at h
    exact .inl ⟨habsent, (Host.Outcome.next.inj h).symm⟩
  case pos =>
    refine .inr ⟨hvalid, ?_⟩
    match htr : s.transport with
    | .fair =>
      rw [exec_showFrame_fair hvalid htr] at h
      exact .inl ⟨_, (Host.Outcome.next.inj h).symm⟩
    | .stuckAfter 0 =>
      rw [exec_showFrame_stuck_zero hvalid htr] at h
      exact .inr ⟨_, _, (Host.Outcome.next.inj h).symm⟩
    | .stuckAfter (k + 1) =>
      obtain ⟨hinside, hbeyond⟩ := exec_showFrame_stuck_succ hvalid htr
      by_cases hk : k < frameLength s
      · obtain ⟨q, -, hrun⟩ := hinside hk
        exact .inr ⟨_, _, Host.Outcome.next.inj (h.symm.trans hrun)⟩
      · exact .inl ⟨_, Host.Outcome.next.inj (h.symm.trans (hbeyond (by omega)))⟩

/-- Settles O44: in each of the three things a SHOW can do, only `SEQ`, `OUT`, the responses and the transport differ, and
`OUT` has grown by nothing, by the frame, or by its first bytes. -/
theorem showWritesNoArchitecturalState : Obligations.ShowWritesNoArchitecturalState := by
  intro s t h
  obtain ⟨-, rfl⟩ | ⟨-, ⟨tr, rfl⟩ | ⟨q, k, rfl⟩⟩ := exec_showFrame_cases h
  · exact ⟨rfl, rfl, rfl, rfl, rfl, .inr rfl, [], (List.append_nil _).symm⟩
  · exact ⟨rfl, rfl, rfl, rfl, rfl, .inr rfl, frame s, rfl⟩
  · exact ⟨rfl, rfl, rfl, rfl, rfl, .inl rfl, (frame s).take k, rfl⟩

theorem exec_fill_absent {s : State} (h : s.valid = false) (c : Rgb) :
    exec (.fill c) s = .next { s with rsps := s.rsps ++ [0#64] } := by
  change execFill c s = _
  rw [execFill, if_neg (by simp [h])]
  rfl

/-- Only SETLEN writes `VALID` (R23, R26). -/
theorem exec_keeps_valid {i : Instr} {s t : State} (hne : ∀ n, i ≠ .setlen n) (h : exec i s = .next t) :
    t.valid = s.valid := by
  cases i with
  | setlen n => exact absurd rfl (hne n)
  | gamma8 | gamma16 | gamma32 | expand | sine8 | hsv | hdq | getpix | setbrt | getbrt => cases h; rfl
  | setpix k c =>
    cases h
    rw [respond_valid]
    split
    · exact writePixel_valid s k.toNat c
    · rfl
  | fill c =>
    cases h
    rw [respond_valid]
    split
    · exact fillPixels_valid s c
    · rfl
  | showFrame =>
    obtain ⟨-, -, hvalid, -⟩ := showWritesNoArchitecturalState s t h
    exact hvalid

/-- Settles O19: with the buffer absent no pixel index is in range, FILL and SHOW take their absent branch, and every
operation but SETLEN keeps `VALID`. -/
theorem absentStateSilentlyIgnores : Obligations.AbsentStateSilentlyIgnores := by
  intro s habsent
  have hrange : ∀ i : Half, ¬ (s.valid = true ∧ i.toNat < s.n.toNat) := by simp [habsent]
  exact ⟨fun i c => exec_setpix_outOfRange (hrange i) c, exec_fill_absent habsent,
    fun i => exec_getpix_outOfRange (hrange i), exec_showFrame_absent habsent,
    fun i t hne h => (exec_keeps_valid hne h).trans habsent⟩

end Sys2Proof.Machine
end

section
/-! SINE8 (R185): one entry of the open table as the response. -/

namespace Sys2Proof.Machine

/-- Settles O52: the row decodes to SINE8 of the word's low byte, and the response is the entry, zero extended, whatever
the table holds. -/
theorem sine8Responds : Obligations.Sine8Responds := by
  refine ⟨fun w h => ?_, fun x s => ⟨rspByte (sine8At s.cfg x), exec_of_pureResponse rfl, toNat_rspByte _⟩⟩
  rw [decode_of_rowMatch (.sine8 0#8) h, withOperandsOf, dByte_eq]

end Sys2Proof.Machine
end

section
/-! The encoder against the decoder (R67, R68, R73): an encoded operation's fields are its operands, and the operands a
word holds are its named bits. -/

namespace Sys2Proof

@[simp] theorem opField_encode (i : Instr) : opField (encode i) = opcodeOf i := opField_commandWord _ _ _ _
@[simp] theorem rsvField_encode (i : Instr) : rsvField (encode i) = 0#8 := rsvField_commandWord _ _ _ _
@[simp] theorem aField_encode (i : Instr) : aField (encode i) = aOperand i := aField_commandWord _ _ _ _
@[simp] theorem dField_encode (i : Instr) : dField (encode i) = dOperand i := dField_commandWord _ _ _ _

@[simp] theorem extractLsb'_byteOperand (x : Byte) : (byteOperand x).extractLsb' 0 8 = x :=
  BitVec.extractLsb'_append_eq_right

/-- Saturation and value stand in the bytes of `d` that HSV reads (R68). -/
theorem extractLsb'_satValOperand (sat val : Byte) :
    (satValOperand sat val).extractLsb' 8 8 = sat ∧ (satValOperand sat val).extractLsb' 0 8 = val := by
  refine ⟨BitVec.eq_of_toNat_eq ?_, BitVec.extractLsb'_append_eq_right⟩
  rw [BitVec.extractLsb'_toNat, toNat_satValOperand, Nat.shiftRight_eq_div_pow]
  omega

/-- The three bytes of a colour stand in the bytes of `d` that a colour is read from (R68). -/
theorem extractLsb'_rgbOperand (c : Rgb) :
    (rgbOperand c).extractLsb' 16 8 = c.r ∧ (rgbOperand c).extractLsb' 8 8 = c.g ∧
    (rgbOperand c).extractLsb' 0 8 = c.b := by
  refine ⟨BitVec.eq_of_toNat_eq ?_, BitVec.eq_of_toNat_eq ?_, BitVec.extractLsb'_append_eq_right⟩
  · rw [BitVec.extractLsb'_toNat, toNat_rgbOperand, Nat.shiftRight_eq_div_pow]
    omega
  · rw [BitVec.extractLsb'_toNat, toNat_rgbOperand, Nat.shiftRight_eq_div_pow]
    omega

/-- A word whose `d` holds a colour reads as that colour. -/
theorem dRgb_of_dField {w : Word} {c : Rgb} (h : dField w = rgbOperand c) : dRgb w = c := by
  obtain ⟨hr, hg, hb⟩ := extractLsb'_rgbOperand c
  rw [dRgb, h, hr, hg, hb]

theorem dByte_of_dField {w : Word} {x : Byte} (h : dField w = byteOperand x) : dByte w = x := by
  rw [dByte, h, extractLsb'_byteOperand]

/-- The operands an encoded operation's word holds are the operation's own, whatever their values. -/
theorem withOperandsOf_encode (i : Instr) : withOperandsOf (encode i) i = i := by
  cases i with
  | gamma8 x | gamma16 x | sine8 x | setbrt x => rw [withOperandsOf, dByte_of_dField (dField_encode _)]
  | gamma32 c => rw [withOperandsOf, dField_encode, dOperand]
  | expand c | hdq c | fill c => rw [withOperandsOf, dRgb_of_dField (dField_encode _)]
  | hsv hue sat val =>
    obtain ⟨hsat, hval⟩ := extractLsb'_satValOperand sat val
    rw [withOperandsOf, dHighByte, dByte, aField_encode, dField_encode, dOperand, hsat, hval, aOperand]
  | setlen n | getpix k => rw [withOperandsOf, aField_encode, aOperand]
  | setpix k c => rw [withOperandsOf, aField_encode, dRgb_of_dField (dField_encode _), aOperand]
  | getbrt | showFrame => rfl

/-- Settles O1: the encoder's word has the operation's opcode and `rsv` 0, and its operand fields read as the operation's
operands. -/
theorem decodeOfEncodeIsIdentity : Obligations.DecodeOfEncodeIsIdentity := by
  intro i
  rw [decode_of_fields i (opField_encode i) (rsvField_encode i), withOperandsOf_encode]

/-- The word of an operation determines it: it is what the decoder reads there. -/
theorem encode_injective : Function.Injective encode := by
  intro i k h
  have hdec := decodeOfEncodeIsIdentity i
  rw [h, decodeOfEncodeIsIdentity k] at hdec
  exact (Except.ok.inj hdec).symm

/-- The part of `namedBits` that lies in `a` (R68). -/
def namedA : Instr → Half
  | .hsv _ _ _ | .setlen _ | .setpix _ _ | .getpix _ => 0xFFFF#16
  | .gamma8 _ | .gamma16 _ | .gamma32 _ | .expand _ | .sine8 _ | .hdq _ | .fill _ | .setbrt _ | .getbrt | .showFrame => 0#16

/-- The part of `namedBits` that lies in `d` (R68). -/
def namedD : Instr → Packed
  | .gamma8 _ | .gamma16 _ | .sine8 _ | .setbrt _ => 0x000000FF#32
  | .gamma32 _ => 0xFFFFFFFF#32
  | .expand _ | .hdq _ | .fill _ | .setpix _ _ => 0x00FFFFFF#32
  | .hsv _ _ _ => 0x0000FFFF#32
  | .setlen _ | .getpix _ | .getbrt | .showFrame => 0#32

/-- The bits that decide a decoding are all of `op` and `rsv` and the named parts of `a` and `d`. -/
theorem opMask_or_namedBits (i : Instr) :
    0xFFFF000000000000#64 ||| namedBits i = commandWord 0xFF#8 0xFF#8 (namedA i) (namedD i) := by
  cases i <;> simp only [namedBits, namedA, namedD] <;> decide

theorem and_opMask_or_namedBits (w : Word) (i : Instr) :
    w &&& (0xFFFF000000000000#64 ||| namedBits i) =
      commandWord (opField w) (rsvField w) (aField w &&& namedA i) (dField w &&& namedD i) := by
  conv_lhs => rw [← commandWord_fields w]
  rw [opMask_or_namedBits, commandWord_and, show (0xFF#8 : Byte) = BitVec.allOnes 8 from rfl, BitVec.and_allOnes,
    BitVec.and_allOnes]

/-- Masking with the low `k` bits keeps the remainder by `2^k`. -/
theorem toNat_and_lowBits {n : Nat} (x y : BitVec n) {k : Nat} (hy : y.toNat = 2 ^ k - 1) :
    (x &&& y).toNat = x.toNat % 2 ^ k := by
  rw [BitVec.toNat_and, hy, Nat.and_two_pow_sub_one_eq_mod]

theorem byteOperand_dByte (w : Word) : byteOperand (dByte w) = dField w &&& 0x000000FF#32 := by
  apply BitVec.eq_of_toNat_eq
  rw [toNat_and_lowBits _ _ (k := 8) rfl, toNat_byteOperand, dByte, BitVec.extractLsb'_toNat, Nat.shiftRight_zero]

theorem satValOperand_dBytes (w : Word) :
    satValOperand (dHighByte w) (dByte w) = dField w &&& 0x0000FFFF#32 := by
  apply BitVec.eq_of_toNat_eq
  rw [toNat_and_lowBits _ _ (k := 16) rfl, toNat_satValOperand, dHighByte, dByte, BitVec.extractLsb'_toNat,
    BitVec.extractLsb'_toNat, Nat.shiftRight_eq_div_pow, Nat.shiftRight_zero]
  omega

theorem rgbOperand_dRgb (w : Word) : rgbOperand (dRgb w) = dField w &&& 0x00FFFFFF#32 := by
  apply BitVec.eq_of_toNat_eq
  rw [toNat_and_lowBits _ _ (k := 24) rfl, toNat_rgbOperand]
  simp only [dRgb, BitVec.extractLsb'_toNat, Nat.shiftRight_eq_div_pow]
  omega

theorem aOperand_withOperandsOf (w : Word) (i : Instr) : aOperand (withOperandsOf w i) = aField w &&& namedA i := by
  cases i with
  | hsv | setlen | setpix | getpix => exact BitVec.and_allOnes.symm
  | gamma8 | gamma16 | gamma32 | expand | sine8 | hdq | fill | setbrt | getbrt | showFrame => exact BitVec.and_zero.symm

theorem dOperand_withOperandsOf (w : Word) (i : Instr) : dOperand (withOperandsOf w i) = dField w &&& namedD i := by
  cases i with
  | gamma8 | gamma16 | sine8 | setbrt => exact byteOperand_dByte w
  | gamma32 => exact BitVec.and_allOnes.symm
  | expand | hdq | fill | setpix => exact rgbOperand_dRgb w
  | hsv => exact satValOperand_dBytes w
  | setlen | getpix | getbrt | showFrame => exact BitVec.and_zero.symm

@[simp] theorem opcodeOf_withOperandsOf (w : Word) (i : Instr) : opcodeOf (withOperandsOf w i) = opcodeOf i := by
  cases i <;> rfl

/-- Encoding the operands a word holds gives back its `op`, `rsv` and named bits. -/
theorem encode_withOperandsOf {w : Word} {i : Instr} (hop : opField w = opcodeOf i) (hrsv : rsvField w = 0#8) :
    encode (withOperandsOf w i) = w &&& (0xFFFF000000000000#64 ||| namedBits i) := by
  rw [and_opMask_or_namedBits, encode, opcodeOf_withOperandsOf, aOperand_withOperandsOf, dOperand_withOperandsOf, hop,
    hrsv]

/-- A word decodes to `i` exactly when its `op`, `rsv` and named bits are those of the word of `i`. -/
theorem decode_eq_ok_iff (w : Word) (i : Instr) :
    decode w = .ok i ↔ w &&& (0xFFFF000000000000#64 ||| namedBits i) = encode i := by
  constructor
  · intro h
    obtain ⟨hrsv, hop, -⟩ := decode_ok h
    have hi : withOperandsOf w i = i := Except.ok.inj ((decode_of_fields i hop hrsv).symm.trans h)
    rw [← encode_withOperandsOf hop hrsv, hi]
  · intro h
    have hop : opField w = opcodeOf i := by
      simpa [and_opMask_or_namedBits] using congrArg opField h
    have hrsv : rsvField w = 0#8 := by
      simpa [and_opMask_or_namedBits] using congrArg rsvField h
    rw [decode_of_fields i hop hrsv, encode_injective ((encode_withOperandsOf hop hrsv).trans h)]

/-- Settles O2: decoding to `i` is a condition on `op`, `rsv` and the named bits alone. -/
theorem unnamedBitsAreIgnored : Obligations.UnnamedBitsAreIgnored := by
  intro w i h
  have hw := (decode_eq_ok_iff w i).1 h
  exact ⟨hw.symm, fun v hv => (decode_eq_ok_iff v i).2 (hv.trans hw)⟩

/-- Settles O4: each word is decoded by evaluation. -/
theorem sampleWordsDecode : Obligations.SampleWordsDecode := ⟨rfl, rfl, rfl, rfl, rfl, rfl⟩

end Sys2Proof
end

section
/-! The words that decode to nothing (R71), and an assembled line as a number (R73, R74). -/

namespace Sys2Proof

open Sys2Proof.Machine

/-- Why a word is `INVALID` (R71): its `rsv`, or else its `op`, which is then the opcode of no operation. -/
theorem decode_error {w : Word} {why : Invalid} (h : decode w = .error why) :
    (rsvField w ≠ 0#8 ∧ why = .rsvNotZero (rsvField w)) ∨ (rsvField w = 0#8 ∧ why = .reservedOpcode (opField w)) := by
  unfold decode at h
  split at h
  case isTrue hrsv => exact .inl ⟨hrsv, (Except.error.inj h).symm⟩
  case isFalse hrsv =>
    refine .inr ⟨not_not.1 hrsv, ?_⟩
    split at h <;> cases h
    rfl

/-- One operation of each kind, its operands 0. -/
def everyKind : List Instr :=
  [.gamma8 0#8, .gamma16 0#8, .gamma32 0#32, .expand { r := 0#8, g := 0#8, b := 0#8 }, .sine8 0#8, .hsv 0#16 0#8 0#8,
    .hdq { r := 0#8, g := 0#8, b := 0#8 }, .setlen 0#16, .setpix 0#16 { r := 0#8, g := 0#8, b := 0#8 }, .getpix 0#16,
    .fill { r := 0#8, g := 0#8, b := 0#8 }, .setbrt 0#8, .getbrt, .showFrame]

/-- The opcodes of the operations are the fourteen of R70. -/
theorem mem_opcodes_iff (n : Nat) :
    n ∈ [0x01, 0x02, 0x03, 0x04, 0x05, 0x06, 0x08, 0x10, 0x11, 0x12, 0x13, 0x14, 0x15, 0x20] ↔
      ∃ i : Instr, (opcodeOf i).toNat = n := by
  constructor
  · intro h
    change n ∈ everyKind.map fun i => (opcodeOf i).toNat at h
    obtain ⟨i, -, hi⟩ := List.mem_map.1 h
    exact ⟨i, hi⟩
  · rintro ⟨i, rfl⟩
    cases i <;> simp [opcodeOf]

/-- `rsv` as a number (R67). -/
theorem toNat_rsvField (w : Word) : (rsvField w).toNat = w.toNat / 2 ^ 48 % 256 := by
  rw [rsvField, BitVec.extractLsb'_toNat, Nat.shiftRight_eq_div_pow]

theorem rsvField_eq_zero_iff (w : Word) : rsvField w = 0#8 ↔ w.toNat / 2 ^ 48 % 256 = 0 := by
  rw [← toNat_rsvField, ← BitVec.toNat_inj, BitVec.toNat_zero]

end Sys2Proof

namespace Sys2Proof.Machine

theorem step_invalid {s : State} {w : Word} {rest : List Word} {why : Invalid} (hseq : s.seq = none)
    (hcmds : s.cmds = w :: rest) (hdec : decode w = .error why) : step s = .refused (.invalidCommand why) := by
  simp only [step, hseq, hcmds, hdec]

/-- Settles O3: a word either decodes, and then its `op` is an opcode and its `rsv` 0, or is `INVALID` for the reason
`decode_error` names; the step then refuses it. -/
theorem invalidWordsAreTheReservedOnes : Obligations.InvalidWordsAreTheReservedOnes := by
  intro w
  refine ⟨fun hrsv => ?_, fun hrsv hop => ?_, fun hrsv hop => ?_, fun why hdec s rest hseq hcmds =>
    step_invalid hseq hcmds hdec⟩
  · exact if_pos (mt (rsvField_eq_zero_iff w).1 hrsv)
  · rw [← rsvField_eq_zero_iff] at hrsv
    rw [mem_opcodes_iff, ← toNat_opField] at hop
    cases hdec : decode w with
    | ok i =>
      obtain ⟨-, hopcode, -⟩ := decode_ok hdec
      exact absurd ⟨i, by rw [hopcode]⟩ hop
    | error why =>
      obtain ⟨hne, -⟩ | ⟨-, rfl⟩ := decode_error hdec
      · exact absurd hrsv hne
      · rfl
  · rw [← rsvField_eq_zero_iff] at hrsv
    rw [mem_opcodes_iff, ← toNat_opField] at hop
    obtain ⟨i, hi⟩ := hop
    refine ⟨withOperandsOf w i, decode_of_fields i (BitVec.eq_of_toNat_eq hi.symm) hrsv, ?_⟩
    rw [opcodeOf_withOperandsOf, hi, toNat_opField]

end Sys2Proof.Machine

namespace Sys2Proof

open Sys2Proof.Machine

/-- A number that fits a byte field is what the byte operand holds. -/
theorem toNat_byteOperand_ofNat {x : Nat} (h : x < 2 ^ 8) : (byteOperand (BitVec.ofNat 8 x)).toNat = x := by
  rw [toNat_byteOperand, BitVec.toNat_ofNat, Nat.mod_eq_of_lt h]

theorem toNat_satValOperand_ofNat {sat val : Nat} (hsat : sat < 2 ^ 8) (hval : val < 2 ^ 8) :
    (satValOperand (BitVec.ofNat 8 sat) (BitVec.ofNat 8 val)).toNat = sat * 2 ^ 8 + val := by
  rw [toNat_satValOperand, BitVec.toNat_ofNat, BitVec.toNat_ofNat, Nat.mod_eq_of_lt hsat, Nat.mod_eq_of_lt hval]

/-- A number that fits 24 bits is what the colour operand holds (R73). -/
theorem toNat_rgbOperand_rgbOfNat {n : Nat} (h : n < 2 ^ 24) : (rgbOperand (rgbOfNat n)).toNat = n := by
  rw [toNat_rgbOperand]
  simp only [rgbOfNat, BitVec.toNat_ofNat, Nat.shiftRight_eq_div_pow]
  omega

/-- Bytes placed side by side by shifts, as a sum. -/
theorem shiftedBytes_eq_add (r : Nat) {g b : Nat} (hg : g < 2 ^ 8) (hb : b < 2 ^ 8) :
    (r <<< 16) ||| (g <<< 8) ||| b = r * 2 ^ 16 + g * 2 ^ 8 + b := by
  have hlow : (g <<< 8) ||| b = g * 2 ^ 8 + b := by rw [← Nat.shiftLeft_add_eq_or_of_lt hb, Nat.shiftLeft_eq]
  have hlt : g * 2 ^ 8 + b < 2 ^ 16 := by omega
  rw [Nat.or_assoc, hlow, ← Nat.shiftLeft_add_eq_or_of_lt hlt, Nat.shiftLeft_eq, Nat.add_assoc]

/-- HSV with operands that fit their fields, encoded (R68, R73). -/
theorem toNat_encode_hsv_ofNat {hue sat val : Nat} (hhue : hue < 2 ^ 16) (hsat : sat < 2 ^ 8) (hval : val < 2 ^ 8) :
    (encode (.hsv (BitVec.ofNat 16 hue) (BitVec.ofNat 8 sat) (BitVec.ofNat 8 val))).toNat =
      0x06 * 2 ^ 56 + hue * 2 ^ 32 + sat * 2 ^ 8 + val := by
  simp only [toNat_encode, opcodeOf, aOperand, dOperand, toNat_satValOperand_ofNat hsat hval, BitVec.toNat_ofNat]
  omega

/-- SETPIX with operands that fit their fields, encoded (R68, R73). -/
theorem toNat_encode_setpix_ofNat {k rgb : Nat} (hk : k < 2 ^ 16) (hrgb : rgb < 2 ^ 24) :
    (encode (.setpix (BitVec.ofNat 16 k) (rgbOfNat rgb))).toNat = 0x11 * 2 ^ 56 + k * 2 ^ 32 + rgb := by
  simp only [toNat_encode, opcodeOf, aOperand, dOperand, toNat_rgbOperand_rgbOfNat hrgb, BitVec.toNat_ofNat]
  omega

theorem assemble_eq_some_iff (l : Line) (i : Instr) : assemble l = some i ↔ l.wellFormed = true ∧ lineInstr l = i := by
  simp [assemble]

/-- Settles O5: a line that does not fit assembles to nothing; the word of one that does is its opcode, `a` and `d` as
numbers, and each operand that fits its field stands there uncut; a pseudo-operation is the operation it expands to. -/
theorem lineEncodesItsNamedFields : Obligations.LineEncodesItsNamedFields := by
  refine ⟨fun l hfit => if_neg (by simp [hfit]), fun l i h => ?_⟩
  obtain ⟨hfit, rfl⟩ := (assemble_eq_some_iff l i).1 h
  cases l with
  | gamma8 x | gamma16 x | sine8 x | setbrt x =>
    have hx : x < 2 ^ 8 := of_decide_eq_true hfit
    simp only [toNat_encode, lineInstr, opcodeOf, aOperand, dOperand, toNat_byteOperand_ofNat hx, BitVec.toNat_ofNat]
    omega
  | gamma32 x =>
    have hx : x < 2 ^ 32 := of_decide_eq_true hfit
    simp only [toNat_encode, lineInstr, opcodeOf, aOperand, dOperand, BitVec.toNat_ofNat]
    omega
  | expand rgb | hdq rgb | fill rgb =>
    have hrgb : rgb < 2 ^ 24 := of_decide_eq_true hfit
    simp only [toNat_encode, lineInstr, opcodeOf, aOperand, dOperand, toNat_rgbOperand_rgbOfNat hrgb, BitVec.toNat_ofNat]
    omega
  | setlen n | getpix n =>
    have hn : n < 2 ^ 16 := of_decide_eq_true hfit
    simp only [toNat_encode, lineInstr, opcodeOf, aOperand, dOperand, BitVec.toNat_ofNat]
    omega
  | hsv hue sat val =>
    simp only [Line.wellFormed, Bool.and_eq_true, decide_eq_true_eq] at hfit
    obtain ⟨⟨hhue, hsat⟩, hval⟩ := hfit
    exact toNat_encode_hsv_ofNat hhue hsat hval
  | hsvHueSat hue sat =>
    simp only [Line.wellFormed, Bool.and_eq_true, decide_eq_true_eq] at hfit
    obtain ⟨hhue, hsat⟩ := hfit
    exact toNat_encode_hsv_ofNat hhue hsat (by decide)
  | hsvHue hue => exact toNat_encode_hsv_ofNat (of_decide_eq_true hfit) (by decide) (by decide)
  | setpix k rgb =>
    simp only [Line.wellFormed, Bool.and_eq_true, decide_eq_true_eq] at hfit
    obtain ⟨hk, hrgb⟩ := hfit
    exact toNat_encode_setpix_ofNat hk hrgb
  | setpixBytes k r g b =>
    simp only [Line.wellFormed, Bool.and_eq_true, decide_eq_true_eq] at hfit
    obtain ⟨⟨⟨hk, hr⟩, hg⟩, hb⟩ := hfit
    refine (toNat_encode_setpix_ofNat hk (shiftedBytes_lt hr hg hb)).trans ?_
    rw [shiftedBytes_eq_add r hg hb]
    omega
  | getbrt | showFrame | clear => rfl

end Sys2Proof
end

section
/-! A step by the state it starts in (R50, R166, R167), and what stops the machine. -/

namespace Sys2Proof.Machine

/-- While a SHOW waits in a `transfer` that never returns every step is the named fault (R166). -/
theorem step_hung {s : State} {q : SeqState} (hseq : s.seq = some q) (hstuck : s.transport = .stuckAfter 0) :
    step s = .fault .transferNeverReturns := by
  simp only [step, hseq, hstuck, if_true]

/-- A SHOW in progress goes on where its transport takes the next byte. -/
theorem step_showing {s : State} {q : SeqState} (hseq : s.seq = some q) (hgoes : s.transport ≠ .stuckAfter 0) :
    step s = .next (runSeq (frameLength s) s) := by
  simp only [step, hseq, hgoes, if_false]

/-- Settles O8: the branch of `step` with no SHOW in progress and an empty port. -/
theorem stepWithNoCommandWaits : Obligations.StepWithNoCommandWaits := by
  intro s hseq hcmds
  simp only [step, hseq, hcmds]

/-- Settles O7: the branch of `step` that runs a decoded command. -/
theorem stepRunsDecodedCommand : Obligations.StepRunsDecodedCommand := by
  intro s w rest i hseq hcmds hdec
  simp only [step, hseq, hcmds, hdec]

/-- Every operation answers a next state, in every state (R13, R190). -/
theorem exec_next (i : Instr) (s : State) : ∃ t, exec i s = .next t := by
  cases i <;> exact ⟨_, rfl⟩

/-- Settles O9: along the branches of `step`, a SHOW in progress hangs or goes on, an empty port waits, and a command is
refused or runs to a next state. -/
theorem onlyHangOrInvalidWordStops : Obligations.OnlyHangOrInvalidWordStops := by
  intro s
  cases hseq : s.seq with
  | some q =>
    by_cases hstuck : s.transport = .stuckAfter 0
    · exact .inl ⟨⟨by simp [hseq], hstuck⟩, step_hung hseq hstuck⟩
    · exact .inr (.inr ⟨fun hhung => hstuck hhung.2, _, step_showing hseq hstuck⟩)
  | none =>
    have hrunning : ¬ Hung s := fun hhung => hhung.1 hseq
    cases hcmds : s.cmds with
    | nil => exact .inr (.inr ⟨hrunning, s, stepWithNoCommandWaits s hseq hcmds⟩)
    | cons w rest =>
      cases hdec : decode w with
      | ok i =>
        obtain ⟨t, ht⟩ := exec_next i { s with cmds := rest }
        exact .inr (.inr ⟨hrunning, t, (stepRunsDecodedCommand s w rest i hseq hcmds hdec).trans ht⟩)
      | error why => exact .inr (.inl ⟨w, rest, why, rfl, rfl, hdec, step_invalid hseq hcmds hdec⟩)

/-- Settles O10: where the SHOW does not hang, the step is a run of the sequencer, which writes no architectural state. -/
theorem noCommandAcceptedDuringShow : Obligations.NoCommandAcceptedDuringShow := by
  intro s q hseq
  refine ⟨step_hung hseq, fun t ht => ?_⟩
  by_cases hstuck : s.transport = .stuckAfter 0
  · rw [step_hung hseq hstuck] at ht
    cases ht
  · rw [step_showing hseq hstuck] at ht
    obtain rfl := Host.Outcome.next.inj ht
    obtain ⟨hcfg, hbuf, hn, hvalid, hbrt, hcmds, hallocs, hdraws, -⟩ := runSeq_frame (frameLength s) s
    exact ⟨hcmds, hbuf, hn, hvalid, hbrt, hcfg, hallocs, hdraws⟩

end Sys2Proof.Machine
end

section
/-! The sequencer's rows (R165), the SHOW that runs to its end (R152), and the SHOW that hangs (R166). -/

namespace Sys2Proof.Machine

/-- Where the `transfer` returns, the row's byte is emitted and `SEQ` goes to the row's next position. -/
theorem seqStep_fair_some {s : State} {q q' : SeqState} (hfair : s.transport = .fair) (hnext : seqNext s q = some q') :
    seqStep s q = { s with out := s.out ++ [seqByte s q], seq := some q' } := by
  have hnext' : seqNext (emit s (seqByte s q)) q = some q' := hnext
  simp only [seqStep, hfair, seqAdvance, hnext']
  rw [emit, hfair]

/-- Where the row has no next position the SHOW ends with the response 0. -/
theorem seqStep_fair_none {s : State} {q : SeqState} (hfair : s.transport = .fair) (hnext : seqNext s q = none) :
    seqStep s q = { s with out := s.out ++ [seqByte s q], seq := none, rsps := s.rsps ++ [0#64] } := by
  have hnext' : seqNext (emit s (seqByte s q)) q = none := hnext
  simp only [seqStep, hfair, seqAdvance, hnext']
  rw [emit, respond, hfair]

/-- Settles O42: the next position is read off `seqNext` row by row, by its own conditions. -/
theorem sequencerRows : Obligations.SequencerRows := by
  intro s hfair hend
  refine ⟨fun k hk => seqStep_fair_some hfair (if_pos hk), ?_, fun i k hk => seqStep_fair_some hfair (if_pos hk),
    fun i => ?_, fun j hj => seqStep_fair_some hfair (if_pos hj), fun j hj => seqStep_fair_none hfair (if_neg hj)⟩
  · split
    · next hpixel => exact seqStep_fair_some hfair (if_pos hpixel)
    · next hnone => exact seqStep_fair_some hfair ((if_neg hnone).trans (if_pos hend))
  · split
    · next hpixel => exact seqStep_fair_some hfair (if_pos hpixel)
    · next hlast => exact seqStep_fair_some hfair ((if_neg hlast).trans (if_pos hend))

/-- Settles O41: the row decodes to SHOW; with the buffer present and a transport that returns the sequencer ends with
`FRAME` emitted, and with it absent it is not started. -/
theorem showEmitsFrame : Obligations.ShowEmitsFrame := by
  refine ⟨fun w h => decode_of_rowMatch .showFrame h, fun s hvalid hfair => ?_, fun s habsent =>
    exec_showFrame_absent habsent⟩
  rw [exec_showFrame_fair hvalid hfair, shown, ← hfair]
  rfl

/-- Settles O51: a SHOW that has ended leaves everything its frame depends on, so the second emits the same frame. -/
theorem repeatedShowEmitsSameFrame : Obligations.RepeatedShowEmitsSameFrame := by
  intro s hvalid hfair
  have hsame : frame (shown s .fair) = frame s := frame_congr rfl rfl rfl rfl
  have hsecond : exec .showFrame (shown s .fair) = .next (shown (shown s .fair) .fair) := exec_showFrame_fair hvalid rfl
  refine ⟨shown (shown s .fair) .fair, ?_, ?_, List.append_assoc _ _ _⟩
  · simp only [execAll, exec_showFrame_fair hvalid hfair, hsecond]
  · rw [shown, hsame]
    rfl

/-! ### The positions of the frame's bytes (R165) -/

theorem seqAt_start (s : State) (p : Fin 4) : seqAt s p.val = some (.start p) := dif_pos p.isLt

theorem seqAt_pixel {s : State} {i : Nat} (hi : i < s.n.toNat) (p : Fin 4) :
    seqAt s (4 + 4 * i + p.val) = some (.pixel i p) := by
  have hidx : (4 + 4 * i + p.val - 4) / 4 = i := by omega
  have hbyte : (4 + 4 * i + p.val - 4) % 4 = p.val := by omega
  rw [seqAt, dif_neg (by omega), if_pos (by omega)]
  simp only [hidx, hbyte]

theorem seqAt_endFrame {s : State} {j : Nat} (hj : j < endBytes s) :
    seqAt s (4 + 4 * s.n.toNat + j) = some (.endFrame j) := by
  rw [seqAt, dif_neg (by omega), if_neg (by omega), if_pos (by rw [frameLength]; omega)]
  congr 2
  omega

/-- Where the transport never returns from its `k`-th byte, a SHOW of at least `k` bytes is left at the row of that byte,
or, for `k = 0`, at its first row with nothing handed over (R166). -/
theorem exec_showFrame_stuck {s : State} {k : Nat} (hvalid : s.valid = true) (hstuck : s.transport = .stuckAfter k)
    (hk : k ≤ frameLength s) : ∃ q, seqAt s (k - 1) = some q ∧ exec .showFrame s = .next (stuckShow s q k) := by
  cases k with
  | zero => exact ⟨.start 0, seqAt_start s 0, exec_showFrame_stuck_zero hvalid hstuck⟩
  | succ k => exact (exec_showFrame_stuck_succ hvalid hstuck).1 hk

/-- A frame shorter than what the transport takes is emitted whole (R166). -/
theorem exec_showFrame_short {s : State} {k : Nat} (hvalid : s.valid = true) (hstuck : s.transport = .stuckAfter k)
    (hk : frameLength s < k) : exec .showFrame s = .next (shown s (.stuckAfter (k - frameLength s))) := by
  cases k with
  | zero => omega
  | succ k => exact (exec_showFrame_stuck_succ hvalid hstuck).2 (Nat.le_of_lt_succ hk)

/-- Settles O43: the SHOW is left at the position of the `k`-th byte, which is a row of the start frame, of a pixel or of
the end frame by where that byte stands. -/
theorem showHangsInTransferThatNeverReturns : Obligations.ShowHangsInTransferThatNeverReturns := by
  intro s k hvalid hstuck
  refine ⟨fun hk => ?_, exec_showFrame_short hvalid hstuck⟩
  obtain ⟨q, hq, hexec⟩ := exec_showFrame_stuck hvalid hstuck hk
  have hposition : ∀ {idx q'}, k - 1 = idx → seqAt s idx = some q' → q = q' := by
    rintro idx q' rfl hq'
    exact Option.some.inj (hq.symm.trans hq')
  exact ⟨q, hexec, seqAt_legal hq,
    fun hzero => hposition (by omega) (seqAt_start s 0),
    fun p hp => hposition (by omega) (seqAt_start s p),
    fun i p hi hp => hposition (by omega) (seqAt_pixel hi p),
    fun j hj hp => hposition (by omega) (seqAt_endFrame hj),
    step_hung rfl rfl⟩

end Sys2Proof.Machine
end

section
/-! FILL (R134): its state, and that state reached pixel by pixel; the six channel orders (R136). -/

namespace Sys2Proof.Machine

theorem exec_fill_present {s : State} (h : s.valid = true) (c : Rgb) :
    exec (.fill c) s = .next { s with buf := (fillPixels s c).buf, rsps := s.rsps ++ [0#64] } := by
  change execFill c s = _
  rw [execFill, if_pos h]
  rfl

/-- After a fill each pixel of the buffer holds the colour (R134). -/
theorem readPixel_fillPixels {s : State} {i : Nat} (hi : i < s.n.toNat) (c : Rgb) : readPixel (fillPixels s c) i = c := by
  obtain ⟨hr, hg, hb, -⟩ := chanOffset_perm s.cfg.order
  have hbyte : ∀ o, o < 3 → Memory.read (fillPixels s c).buf (3 * i + o) = byteAtPosition s.cfg.order c o := by
    intro o ho
    rw [read_fillPixels, if_pos (by rw [bufSize]; omega), show (3 * i + o) % 3 = o by omega]
  simp only [readPixel, fillPixels_cfg, pixelAddr, hbyte _ hr, hbyte _ hg, hbyte _ hb, byteAtPosition_red,
    byteAtPosition_green, byteAtPosition_blue]

/-- Settles O33: every pixel of the filled buffer reads as the colour; beyond `BUF` nothing is listed, before or after. -/
theorem fillWritesEveryPixel : Obligations.FillWritesEveryPixel := by
  refine ⟨fun w h => ?_, fun c s hinv hvalid => ⟨_, exec_fill_present hvalid c, fun i hi => ?_, fun a ha => ?_⟩,
    fun c s habsent => exec_fill_absent habsent c⟩
  · rw [decode_of_rowMatch (.fill { r := 0#8, g := 0#8, b := 0#8 }) h, withOperandsOf, dRgb_eq]
  · have hpixel := readPixel_fillPixels hi c
    exact ⟨congrArg Rgb.r hpixel, congrArg Rgb.g hpixel, congrArg Rgb.b hpixel⟩
  · rw [read_fillPixels, if_neg (by omega), read_beyond hinv.bufInside ha]

/-- SETPIX of the indices below `k`, one after the other, leaves a canonical buffer in which exactly the pixels below `k`
hold the colour (R134). -/
theorem execAll_setpix_range {s : State} (hwf : Memory.wf s.buf) (hvalid : s.valid = true) (c : Rgb) :
    ∀ k, k ≤ s.n.toNat → ∃ (m : Memory) (l : List Word),
      execAll ((List.range k).map fun i => Instr.setpix (BitVec.ofNat 16 i) c) s = .next { s with buf := m, rsps := l } ∧
      Memory.wf m ∧
      ∀ a, Memory.read m a = if a / 3 < k then byteAtPosition s.cfg.order c (a % 3) else Memory.read s.buf a
  | 0, _ => ⟨s.buf, s.rsps, rfl, hwf, fun a => by simp⟩
  | k + 1, hk => by
    obtain ⟨m, l, hrun, hm, hread⟩ := execAll_setpix_range hwf hvalid c k (by omega)
    have hindex : (BitVec.ofNat 16 k).toNat = k := Nat.mod_eq_of_lt (by omega)
    have hstep := exec_setpix_inRange (s := { s with buf := m, rsps := l }) (i := BitVec.ofNat 16 k) hvalid
      (by rw [hindex]; exact hk) c
    rw [hindex] at hstep
    refine ⟨(writePixel { s with buf := m, rsps := l } k c).buf, l ++ [0#64], ?_, writePixel_wf hm k c, fun a => ?_⟩
    · rw [List.range_succ, List.map_append, execAll_append, hrun]
      simp only [List.map_cons, List.map_nil, execAll, hstep]
      rfl
    · rw [read_writePixel, hread]
      by_cases ha : a / 3 = k
      · rw [if_pos ha, if_pos (by omega)]
      · rw [if_neg ha]
        exact if_congr (by omega) rfl rfl

/-- Settles O34: the buffer of the SETPIX run and the filled one are both canonical and read alike at every address. -/
theorem fillEqualsSetpixOfEveryIndex : Obligations.FillEqualsSetpixOfEveryIndex := by
  intro c s hinv hvalid
  obtain ⟨m, l, hrun, hm, hread⟩ := execAll_setpix_range hinv.bufCanonical hvalid c s.n.toNat le_rfl
  have hsame : m = (fillPixels s c).buf := by
    refine Memory.ext_of_read hm (fillPixels_wf s c).1 fun a => ?_
    rw [hread, read_fillPixels]
    by_cases ha : a < bufSize s
    · rw [if_pos ha, if_pos (by rw [bufSize] at ha; omega)]
    · rw [if_neg ha, if_neg (by rw [bufSize] at ha; omega), read_beyond hinv.bufInside (by omega)]
  exact ⟨_, _, exec_fill_present hvalid c, hrun, by rw [hsame]⟩

/-- The byte at position `p` of a pixel just written is the colour's byte for that position (R136). -/
theorem read_writePixel_position (s : State) (i : Nat) (c : Rgb) {p : Nat} (hp : p < 3) :
    Memory.read (writePixel s i c).buf (3 * i + p) = byteAtPosition s.cfg.order c p := by
  rw [read_writePixel, if_pos (by omega), show (3 * i + p) % 3 = p by omega]

/-- Settles O36: the three bytes are those of the positions 0, 1 and 2, which each order gives to its own channels. -/
theorem channelOrderPlacesBytes : Obligations.ChannelOrderPlacesBytes := by
  intro i c s hvalid hi
  refine ⟨_, exec_setpix_inRange hvalid hi c, ?_⟩
  have hfirst := read_writePixel_position s i.toNat c (p := 0) (by decide)
  have hsecond := read_writePixel_position s i.toNat c (p := 1) (by decide)
  have hthird := read_writePixel_position s i.toNat c (p := 2) (by decide)
  rw [Nat.add_zero] at hfirst
  rw [respond_buf, hfirst, hsecond, hthird]
  cases s.cfg.order <;> rfl

end Sys2Proof.Machine
end

section
/-! Which operation writes which state (R23), the response each drives (R69), and what outlasts a run of operations (R135). -/

namespace Sys2Proof.Machine

/-- Settles O16: operation by operation, the state `exec` leaves differs from the one before in the named fields only. -/
theorem writersOfState : Obligations.WritersOfState := by
  intro i s t h
  cases i with
  | gamma8 | gamma16 | gamma32 | expand | sine8 | hsv | hdq | getpix | getbrt =>
    cases h
    exact ⟨rfl, rfl, fun _ _ _ => rfl, fun _ => ⟨rfl, rfl, rfl, rfl⟩, fun _ => rfl, fun _ => ⟨rfl, rfl, rfl⟩⟩
  | setbrt l =>
    cases h
    exact ⟨rfl, rfl, fun _ _ _ => rfl, fun _ => ⟨rfl, rfl, rfl, rfl⟩, fun hne => absurd rfl (hne l),
      fun _ => ⟨rfl, rfl, rfl⟩⟩
  | setlen n =>
    cases h
    exact ⟨rfl, rfl, fun _ _ hne => absurd rfl (hne n), fun hne => absurd rfl (hne n), fun _ => rfl,
      fun _ => ⟨rfl, rfl, rfl⟩⟩
  | setpix k c =>
    by_cases hin : s.valid = true ∧ k.toNat < s.n.toNat
    · rw [exec_setpix_inRange hin.1 hin.2] at h
      cases h
      exact ⟨rfl, rfl, fun hne _ _ => absurd rfl (hne k c), fun _ => ⟨rfl, rfl, rfl, rfl⟩, fun _ => rfl,
        fun _ => ⟨rfl, rfl, rfl⟩⟩
    · rw [exec_setpix_outOfRange hin] at h
      cases h
      exact ⟨rfl, rfl, fun _ _ _ => rfl, fun _ => ⟨rfl, rfl, rfl, rfl⟩, fun _ => rfl, fun _ => ⟨rfl, rfl, rfl⟩⟩
  | fill c =>
    cases hvalid : s.valid with
    | true =>
      rw [exec_fill_present hvalid] at h
      cases h
      exact ⟨rfl, rfl, fun _ hne _ => absurd rfl (hne c), fun _ => ⟨rfl, hvalid, rfl, rfl⟩, fun _ => rfl,
        fun _ => ⟨rfl, rfl, rfl⟩⟩
    | false =>
      rw [exec_fill_absent hvalid] at h
      cases h
      exact ⟨rfl, rfl, fun _ _ _ => rfl, fun _ => ⟨rfl, hvalid, rfl, rfl⟩, fun _ => rfl, fun _ => ⟨rfl, rfl, rfl⟩⟩
  | showFrame =>
    obtain ⟨-, rfl⟩ | ⟨-, ⟨tr, rfl⟩ | ⟨q, k, rfl⟩⟩ := exec_showFrame_cases h <;>
      exact ⟨rfl, rfl, fun _ _ _ => rfl, fun _ => ⟨rfl, rfl, rfl, rfl⟩, fun _ => rfl, fun hne => absurd rfl hne⟩

/-- The response of a pure operation leaves bits 63:48 zero (R69). -/
theorem pureResponse_lt {cfg : Config} {i : Instr} {z : Word} (h : pureResponse cfg i = some z) : z.toNat < 2 ^ 48 := by
  cases i with
  | gamma8 | sine8 => cases h; rw [toNat_rspByte]; omega
  | gamma16 => cases h; rw [toNat_rspHalf]; omega
  | gamma32 | hsv => cases h; rw [toNat_rspPacked]; omega
  | expand => cases h; rw [toNat_rspRgb16]; omega
  | hdq => cases h; rw [toNat_rspHd]; omega
  | setlen | setpix | getpix | fill | setbrt | getbrt | showFrame => cases h

/-- Settles O17: a pure operation drives its response; every other one drives 0, a packed colour or a byte; and a SHOW whose
transport returns has ended. -/
theorem everyOperationDrivesOneResponse : Obligations.EveryOperationDrivesOneResponse := by
  intro i s hfair
  cases hpure : pureResponse s.cfg i with
  | some z => exact ⟨_, z, exec_of_pureResponse hpure, rfl, pureResponse_lt hpure, id⟩
  | none =>
    cases i with
    | gamma8 | gamma16 | gamma32 | expand | sine8 | hsv | hdq => cases hpure
    | setlen n => exact ⟨_, 0#64, exec_setlen n s, rfl, by decide, id⟩
    | setbrt l => exact ⟨_, 0#64, exec_setbrt l s, rfl, by decide, id⟩
    | getbrt => exact ⟨_, _, exec_getbrt s, rfl, by rw [toNat_rspByte]; omega, id⟩
    | setpix k c =>
      by_cases hin : s.valid = true ∧ k.toNat < s.n.toNat
      · exact ⟨_, 0#64, exec_setpix_inRange hin.1 hin.2 c, rfl, by decide, id⟩
      · exact ⟨_, 0#64, exec_setpix_outOfRange hin c, rfl, by decide, id⟩
    | getpix k =>
      by_cases hin : s.valid = true ∧ k.toNat < s.n.toNat
      · exact ⟨_, _, exec_getpix_inRange hin.1 hin.2, rfl, by rw [toNat_rspPacked]; omega, id⟩
      · exact ⟨_, 0#64, exec_getpix_outOfRange hin, rfl, by decide, id⟩
    | fill c =>
      cases hvalid : s.valid with
      | true => exact ⟨_, 0#64, exec_fill_present hvalid c, rfl, by decide, id⟩
      | false => exact ⟨_, 0#64, exec_fill_absent hvalid c, rfl, by decide, id⟩
    | showFrame =>
      cases hvalid : s.valid with
      | true => exact ⟨_, 0#64, exec_showFrame_fair hvalid hfair, rfl, by decide, fun _ => rfl⟩
      | false => exact ⟨_, 0#64, exec_showFrame_absent hvalid, rfl, by decide, id⟩

/-- An operation that is no SETPIX of pixel `i`, no FILL and no SETLEN leaves the pixel as it was and in range. -/
theorem exec_keeps_pixel {op : Instr} {s t : State} {i : Half} (hset : ∀ k c, op = .setpix k c → k ≠ i)
    (hfill : ∀ c, op ≠ .fill c) (hlen : ∀ n, op ≠ .setlen n) (h : exec op s = .next t) :
    t.valid = s.valid ∧ t.n = s.n ∧ readPixel t i.toNat = readPixel s i.toNat := by
  obtain ⟨hcfg, -, hbuf, hsize, -⟩ := writersOfState op s t h
  obtain ⟨hn, hvalid, -⟩ := hsize hlen
  refine ⟨hvalid, hn, ?_⟩
  by_cases hop : ∃ k c, op = .setpix k c
  · obtain ⟨k, c, rfl⟩ := hop
    by_cases hin : s.valid = true ∧ k.toNat < s.n.toNat
    · rw [exec_setpix_inRange hin.1 hin.2] at h
      cases h
      exact readPixel_writePixel_ne s (BitVec.toNat_ne.1 (hset k c rfl)) c
    · rw [exec_setpix_outOfRange hin] at h
      cases h
      rfl
  · rw [readPixel, hcfg, hbuf (fun k c e => hop ⟨k, c, e⟩) hfill hlen, readPixel]

/-- The same of a run of such operations (R135). -/
theorem execAll_keeps_pixel {i : Half} : ∀ (l : List Instr) (s t : State),
    (∀ k c, Instr.setpix k c ∈ l → k ≠ i) → (∀ c, Instr.fill c ∉ l) → (∀ n, Instr.setlen n ∉ l) →
    execAll l s = .next t → t.valid = s.valid ∧ t.n = s.n ∧ readPixel t i.toNat = readPixel s i.toNat
  | [], s, t, _, _, _, h => by cases h; exact ⟨rfl, rfl, rfl⟩
  | op :: l, s, t, hset, hfill, hlen, h => by
    obtain ⟨u, hu⟩ := exec_next op s
    rw [execAll, hu] at h
    obtain ⟨hvalid, hn, hpixel⟩ := exec_keeps_pixel (i := i)
      (fun k c e => hset k c (e ▸ List.mem_cons_self)) (fun c e => hfill c (e ▸ List.mem_cons_self))
      (fun n e => hlen n (e ▸ List.mem_cons_self)) hu
    obtain ⟨hvalid', hn', hpixel'⟩ := execAll_keeps_pixel l u t (fun k c hk => hset k c (List.mem_cons_of_mem _ hk))
      (fun c hc => hfill c (List.mem_cons_of_mem _ hc)) (fun n hc => hlen n (List.mem_cons_of_mem _ hc)) h
    exact ⟨hvalid'.trans hvalid, hn'.trans hn, hpixel'.trans hpixel⟩

/-- Settles O35: SETPIX leaves the pixel in range with the colour, the run between keeps both, and GETPIX answers the stored
colour. -/
theorem pixelRoundTrip : Obligations.PixelRoundTrip := by
  intro i c s t u between hvalid hi hset hsetpix hfill hsetlen hrun
  obtain ⟨huvalid, hun, hupixel⟩ := execAll_keeps_pixel between t u hsetpix hfill hsetlen hrun
  rw [exec_setpix_inRange hvalid hi] at hset
  obtain rfl := Host.Outcome.next.inj hset
  have hcolour : readPixel u i.toNat = c := by rw [hupixel, readPixel_respond, readPixel_writePixel_same]
  refine ⟨_, exec_getpix_inRange (huvalid.trans hvalid) (by rw [hun]; exact hi), ?_⟩
  rw [hcolour, toNat_rspPacked, toNat_packRgb]

end Sys2Proof.Machine
end

section
/-! The invariant of the block (R24, R25, R28, R50): it holds after reset and every step keeps it. -/

namespace Sys2Proof.Machine

/-- With no SHOW in progress the invariant asks nothing of `SEQ`. -/
theorem showStuck_of_none {t : State} (hseq : t.seq = none) :
    ∀ q, t.seq = some q → t.valid = true ∧ seqLegal t q ∧ t.transport = .stuckAfter 0 := by
  intro q hq
  rw [hseq] at hq
  cases hq

/-- A buffer just allocated, with nothing listed, meets the invariant where an absent one has no pixels (R31, R131). -/
theorem BlockInv.of_allocated {t : State} (hbuf : t.buf = []) (habsent : t.valid = false → t.n = 0#16)
    (hseq : t.seq = none) : BlockInv t where
  bufCanonical := by rw [hbuf]; exact ⟨List.Pairwise.nil, nofun⟩
  bufInside := by rw [hbuf]; exact nofun
  absentEmpty := fun h => ⟨habsent h, hbuf⟩
  showStuck := showStuck_of_none hseq

/-- What leaves the buffer, `N` and `VALID` as they were keeps the invariant, but for what it asks of `SEQ`. -/
theorem BlockInv.of_same_buffer {s t : State} (hinv : BlockInv s) (hbuf : t.buf = s.buf) (hn : t.n = s.n)
    (hvalid : t.valid = s.valid)
    (hshow : ∀ q, t.seq = some q → t.valid = true ∧ seqLegal t q ∧ t.transport = .stuckAfter 0) : BlockInv t where
  bufCanonical := by rw [hbuf]; exact hinv.bufCanonical
  bufInside := by rw [hbuf, bufSize, hn]; exact hinv.bufInside
  absentEmpty := by rw [hbuf, hn, hvalid]; exact hinv.absentEmpty
  showStuck := hshow

/-- A present buffer in canonical form that lists only its own addresses meets the invariant with no SHOW in progress. -/
theorem BlockInv.of_present {t : State} (hwf : Memory.wf t.buf) (hinside : ∀ c ∈ t.buf, c.1 < bufSize t)
    (hvalid : t.valid = true) (hseq : t.seq = none) : BlockInv t where
  bufCanonical := hwf
  bufInside := hinside
  absentEmpty := fun habsent => absurd hvalid (by simp [habsent])
  showStuck := showStuck_of_none hseq

/-- Settles O14: after reset nothing is listed, an absent buffer has no pixels, and no SHOW is in progress. -/
theorem resetMeetsInvariant : Obligations.ResetMeetsInvariant := by
  have hreset : ∀ (cfg : Config) (ok : Bool), BlockInv (State.resetWith cfg ok) := fun cfg ok =>
    .of_allocated rfl (fun habsent => if_neg (ne_true_of_eq_false habsent)) rfl
  exact ⟨hreset Config.reference true, hreset⟩

/-- Writing a pixel that is in range keeps the buffer inside its own addresses (R24, R46). -/
theorem writePixel_inside {s : State} (hinside : ∀ e ∈ s.buf, e.1 < bufSize s) {i : Nat} (hi : i < s.n.toNat) (c : Rgb) :
    ∀ e ∈ (writePixel s i c).buf, e.1 < bufSize s := by
  intro e he
  obtain hold | ⟨-, hpixel⟩ := mem_writePixel he
  · exact hinside e hold
  · rw [bufSize]
    omega

/-- A SHOW that an operation leaves in progress stands at the position of a byte of the frame of a present buffer, and its
transport never returns (R165, R166). -/
theorem exec_showFrame_seq {s t : State} (hseq : s.seq = none) (h : exec .showFrame s = .next t) {q : SeqState}
    (hq : t.seq = some q) : t.valid = true ∧ seqLegal t q ∧ t.transport = .stuckAfter 0 := by
  have hleaves : ∀ {u}, exec .showFrame s = .next u → t = u := fun hu => Host.Outcome.next.inj (h.symm.trans hu)
  cases hvalid : s.valid with
  | false =>
    obtain rfl := hleaves (exec_showFrame_absent hvalid)
    exact absurd hq (by simp [hseq])
  | true =>
    cases htr : s.transport with
    | fair =>
      obtain rfl := hleaves (exec_showFrame_fair hvalid htr)
      cases hq
    | stuckAfter k =>
      by_cases hk : k ≤ frameLength s
      · obtain ⟨q', hat, hexec⟩ := exec_showFrame_stuck hvalid htr hk
        obtain rfl := hleaves hexec
        obtain rfl := Option.some.inj hq
        exact ⟨hvalid, seqAt_legal hat, rfl⟩
      · obtain rfl := hleaves (exec_showFrame_short hvalid htr (Nat.lt_of_not_le hk))
        cases hq

/-- Every operation accepted with no SHOW in progress keeps the invariant. -/
theorem exec_keeps_blockInv {i : Instr} {s t : State} (hinv : BlockInv s) (hseq : s.seq = none)
    (h : exec i s = .next t) : BlockInv t := by
  cases i with
  | gamma8 | gamma16 | gamma32 | expand | sine8 | hsv | hdq | getpix | setbrt | getbrt =>
    cases h
    exact hinv.of_same_buffer rfl rfl rfl (showStuck_of_none hseq)
  | setlen n =>
    cases h
    exact .of_allocated rfl (fun habsent => if_neg (ne_true_of_eq_false habsent)) hseq
  | setpix k c =>
    by_cases hin : s.valid = true ∧ k.toNat < s.n.toNat
    · obtain ⟨hvalid, hk⟩ := hin
      rw [exec_setpix_inRange hvalid hk] at h
      cases h
      exact .of_present (writePixel_wf hinv.bufCanonical k.toNat c) (writePixel_inside hinv.bufInside hk c) hvalid hseq
    · rw [exec_setpix_outOfRange hin] at h
      cases h
      exact hinv.of_same_buffer rfl rfl rfl (showStuck_of_none hseq)
  | fill c =>
    cases hvalid : s.valid with
    | true =>
      rw [exec_fill_present hvalid] at h
      cases h
      obtain ⟨hwf, hinside⟩ := fillPixels_wf s c
      exact .of_present hwf hinside hvalid hseq
    | false =>
      rw [exec_fill_absent hvalid] at h
      cases h
      exact hinv.of_same_buffer rfl rfl rfl (showStuck_of_none hseq)
  | showFrame =>
    obtain ⟨hbuf, hn, hvalid, -⟩ := showWritesNoArchitecturalState s t h
    exact hinv.of_same_buffer hbuf hn hvalid fun q => exec_showFrame_seq hseq h

/-- Settles O15: a SHOW in progress is stuck, so its step is no next state; an idle step changes nothing; and a command runs
with no SHOW in progress, on a state that differs from `s` at the port alone. -/
theorem stepKeepsInvariant : Obligations.StepKeepsInvariant := by
  intro s t hinv h
  cases hseq : s.seq with
  | some q =>
    obtain ⟨-, -, hstuck⟩ := hinv.showStuck q hseq
    rw [step_hung hseq hstuck] at h
    cases h
  | none =>
    cases hcmds : s.cmds with
    | nil =>
      rw [stepWithNoCommandWaits s hseq hcmds] at h
      cases h
      exact hinv
    | cons w rest =>
      cases hdec : decode w with
      | error why =>
        rw [step_invalid hseq hcmds hdec] at h
        cases h
      | ok i =>
        rw [stepRunsDecodedCommand s w rest i hseq hcmds hdec] at h
        have hconsumed : BlockInv { s with cmds := rest } :=
          hinv.of_same_buffer rfl rfl rfl (showStuck_of_none hseq)
        exact exec_keeps_blockInv hconsumed hseq h

end Sys2Proof.Machine
end

section
/-! The quantizer (R113 to R121): the ladder by the largest channel, the rescaled channels, the mantissas. -/

namespace Sys2Proof.Machine

/-- The largest of the three expanded channels (R119). -/
def maxChannel (c : Rgb16) : Nat := max c.r.toNat (max c.g.toNat c.b.toNat)

/-- One test of the ladder is a bound on the largest channel (R119). -/
theorem fits_iff_maxChannel (c : Rgb16) (num den : Nat) : fits c num den = true ↔ maxChannel c * num ≤ 65535 * den := by
  simp only [fits_iff, maxChannel, max_mul, max_le_iff]

/-- The ladder as a function of the largest channel, with the four thresholds of R119. -/
theorem ladder_eq_ite (c : Rgb16) :
    ladder c =
      if maxChannel c ≤ 31710 then
        if maxChannel c ≤ 14798 then
          if maxChannel c ≤ 6342 then
            if maxChannel c ≤ 2114 then { power := 1#5, num := 9765, den := 315 }
            else { power := 3#5, num := 3255, den := 315 }
          else { power := 7#5, num := 465, den := 105 }
        else { power := 15#5, num := 31, den := 15 }
      else { power := 31#5, num := 1, den := 1 } := by
  have h15 : fits c 31 15 = true ↔ maxChannel c ≤ 31710 := by rw [fits_iff_maxChannel]; omega
  have h7 : fits c 465 105 = true ↔ maxChannel c ≤ 14798 := by rw [fits_iff_maxChannel]; omega
  have h3 : fits c 3255 315 = true ↔ maxChannel c ≤ 6342 := by rw [fits_iff_maxChannel]; omega
  have h1 : fits c 9765 315 = true ↔ maxChannel c ≤ 2114 := by rw [fits_iff_maxChannel]; omega
  simp only [ladder, h15, h7, h3, h1]

/-- Settles O26: the five ranges are the branches of the ladder, from the top one down. -/
theorem ladderLevelByMaximum : Obligations.LadderLevelByMaximum := by
  rintro c m hm
  rw [ladder_eq_ite, show maxChannel c = m from hm.symm]
  refine ⟨fun h => if_neg (by omega), fun h h' => ?_, fun h h' => ?_, fun h h' => ?_, fun h => ?_⟩
  · rw [if_pos (by omega), if_neg (by omega)]
  · rw [if_pos (by omega), if_pos (by omega), if_neg (by omega)]
  · rw [if_pos (by omega), if_pos (by omega), if_pos (by omega), if_neg (by omega)]
  · rw [if_pos (by omega), if_pos (by omega), if_pos (by omega), if_pos (by omega)]

/-- The level the ladder ends at passes its own test, and its denominator is not 0 (R114, R120). -/
theorem ladder_fits (c : Rgb16) : fits c (ladder c).num (ladder c).den = true ∧ 0 < (ladder c).den := by
  have htop : fits c 1 1 = true := by
    rw [fits_iff]
    omega
  rw [ladder]
  split_ifs with h15 h7 h3 h1
  · exact ⟨h1, by decide⟩
  · exact ⟨h3, by decide⟩
  · exact ⟨h7, by decide⟩
  · exact ⟨h15, by decide⟩
  · exact ⟨htop, by decide⟩

/-- Where the test passes for a channel, its rescaled value fits 16 bits (R120). -/
theorem rescale_lt {l : Level} {c : Half} (hden : 0 < l.den) (h : c.toNat * l.num ≤ 65535 * l.den) :
    rescale l c < 2 ^ 16 :=
  (Nat.div_lt_iff_lt_mul hden).2 (by omega)

/-- Settles O27: the product of each channel passed the test of the level the ladder ended at. -/
theorem rescaledChannelsFitSixteenBits : Obligations.RescaledChannelsFitSixteenBits := by
  intro c
  obtain ⟨hfits, hden⟩ := ladder_fits c
  obtain ⟨hr, hg, hb⟩ := (fits_iff c _ _).1 hfits
  exact ⟨Nat.ne_of_gt hden, rescale_lt hden hr, rescale_lt hden hg, rescale_lt hden hb⟩

/-- Settles O28: the mantissas are `toNat_mantissa` of the rescaled channels, which fit 16 bits. -/
theorem defaultQuantizerMantissas : Obligations.DefaultQuantizerMantissas := by
  rintro cfg c hdefault e l rfl rfl
  obtain ⟨-, hr, hg, hb⟩ := rescaledChannelsFitSixteenBits (expandAt cfg c)
  rw [quantAt_default hdefault]
  exact ⟨rfl, toNat_mantissa c.r hr, toNat_mantissa c.g hg, toNat_mantissa c.b hb⟩

/-- A grey of at least 65024 quantizes to white at power 31 where the 8-bit input is white: the high byte is 254, corrected,
or 255 (R121). -/
theorem quantizeExpanded_white {g : Half} (h : 65024 ≤ g.toNat) :
    quantizeExpanded { r := 255#8, g := 255#8, b := 255#8 } { r := g, g := g, b := g } =
      { r := 255#8, g := 255#8, b := 255#8, power := 31#5 } := by
  have hmax : maxChannel { r := g, g := g, b := g } = g.toNat := by simp [maxChannel]
  have hlevel : ladder { r := g, g := g, b := g } = { power := 31#5, num := 1, den := 1 } := by
    rw [ladder_eq_ite, hmax, if_neg (by omega)]
  have hrescale : rescale { power := 31#5, num := 1, den := 1 } g = g.toNat := by simp [rescale]
  have hmantissa : mantissa 255#8 g.toNat = 255#8 := by
    apply BitVec.eq_of_toNat_eq
    rw [toNat_mantissa _ g.isLt, if_pos ⟨rfl, by omega⟩]
    rfl
  rw [quantizeExpanded, hlevel, hrescale, hmantissa]

/-- Black quantizes to black at power 1: every test of the ladder passes (R121; C1). -/
theorem quantizeExpanded_black (c : Rgb) :
    quantizeExpanded c { r := 0#16, g := 0#16, b := 0#16 } = { r := 0#8, g := 0#8, b := 0#8, power := 1#5 } := by
  have hlevel : ladder { r := 0#16, g := 0#16, b := 0#16 } = { power := 1#5, num := 9765, den := 315 } := by decide
  have hmantissa : ∀ x, mantissa x 0 = 0#8 := fun x => mantissa_of_highByte_ne x (by decide) (by decide)
  simp [quantizeExpanded, hlevel, rescale, hmantissa]

/-- With the default `EXPAND` and `QUANT` black quantizes to black at power 1, whatever the tables' open entries. -/
theorem quantAt_black {cfg : Config} (hexpand : cfg.expand = []) (hquant : cfg.quant = []) :
    quantAt cfg { r := 0#8, g := 0#8, b := 0#8 } = { r := 0#8, g := 0#8, b := 0#8, power := 1#5 } := by
  rw [quantAt_default hquant, expandAt_black hexpand, quantizeExpanded_black]

/-- With the default `EXPAND` and `QUANT` white quantizes to white at power 31, whatever the tables' open entries. -/
theorem quantAt_white {cfg : Config} (hexpand : cfg.expand = []) (hquant : cfg.quant = []) :
    quantAt cfg { r := 255#8, g := 255#8, b := 255#8 } = { r := 255#8, g := 255#8, b := 255#8, power := 31#5 } := by
  rw [quantAt_default hquant, expandAt_default hexpand, expandDefault, quantizeExpanded_white (gamma16At_last hexpand)]

theorem exec_hdq (c : Rgb) (s : State) :
    exec (.hdq c) s = .next { s with rsps := s.rsps ++ [rspHd (quantAt s.cfg c)] } := rfl

/-- Settles O29: the responses are the HD tuples of white and of black. -/
theorem quantizerFixedPoints : Obligations.QuantizerFixedPoints := by
  intro s hexpand hquant
  refine ⟨?_, ?_⟩
  · rw [exec_hdq, quantAt_white hexpand hquant]
    rfl
  · rw [exec_hdq, quantAt_black hexpand hquant]
    rfl

end Sys2Proof.Machine
end

section
/-! Brightness and the HD frame (R140, R157, R158), and the first frame after a reset (R211). -/

namespace Sys2Proof.Machine

/-- Settles O40: the active product `b * s / 256` with `s` at most 255. -/
theorem scaleBounds : Obligations.ScaleBounds := by
  intro b s
  by_cases hs : s = 0#8
  · subst hs
    exact ⟨le_rfl, rfl, fun hne => absurd rfl hne⟩
  · have hle : b.toNat * s.toNat ≤ b.toNat * 255 := Nat.mul_le_mul_left _ (by omega)
    have hzero : scale8 0#8 s = 0#8 := by
      apply BitVec.eq_of_toNat_eq
      rw [toNat_scale8 _ hs, BitVec.toNat_zero, Nat.zero_mul, Nat.zero_div]
    rw [toNat_scale8 b hs, toNat_scale8 255#8 hs]
    refine ⟨by omega, hzero, fun _ => ⟨by omega, fun hb => ?_, ?_⟩⟩
    · have hpos : b.toNat ≠ 0 := fun e => hb (BitVec.eq_of_toNat_eq e)
      omega
    · change 255 * s.toNat / 256 = _
      omega

/-- Under an active brightness no byte is emitted as 255 (R140, R158). -/
theorem scale8_ne_full {s : Byte} (hs : s ≠ 0#8) (b : Byte) : scale8 b s ≠ 255#8 := by
  obtain ⟨-, -, hactive⟩ := scaleBounds b s
  obtain ⟨hle, -⟩ := hactive hs
  intro e
  rw [e] at hle
  exact absurd hle (by decide)

/-- Settles O50: each channel of the pixel is a scaled byte, so it is not 255 and the mantissa is the plain high byte. -/
theorem scaledPixelsAreNeverCorrected : Obligations.ScaledPixelsAreNeverCorrected := by
  rintro s i hactive hdefault c e l rfl rfl rfl
  have hne : ∀ a, (scaledByte s a).toNat ≠ 255 := fun a h =>
    scale8_ne_full hactive (Memory.read s.buf a) (BitVec.eq_of_toNat_eq h)
  obtain ⟨-, hr, hg, hb⟩ := defaultQuantizerMantissas s.cfg (scaledPixel s i) hdefault _ _ rfl rfl
  rw [if_neg fun h => hne _ h.1] at hr hg hb
  exact ⟨scale8_ne_full hactive _, scale8_ne_full hactive _, scale8_ne_full hactive _, hr, hg, hb⟩

theorem quad_hd {s : State} (h : s.cfg.hd = true) (i : Nat) : quad s i = hdQuad s i := if_pos h

/-- After its header an HD quad holds the mantissas in buffer position order (R157). -/
theorem hdBytes_position (cfg : Config) (h : Hd) {p : Nat} (hp : p < 3) :
    (hdBytes cfg h)[p + 1]? = some (byteAtPosition cfg.order { r := h.r, g := h.g, b := h.b } p) := by
  match p, hp with
  | 0, _ => rfl
  | 1, _ => rfl
  | 2, _ => rfl

/-- Settles O46: pixel `i` stands in the frame as its HD quad, and the byte at a colour's position is its mantissa. -/
theorem hdFrameLayout : Obligations.HdFrameLayout := by
  rintro s hhd i hi h rfl
  obtain ⟨hr, hg, hb, -⟩ := chanOffset_perm s.cfg.order
  have hbyte : ∀ p, p < 3 → (frame s)[4 + 4 * i + 1 + p]? = (hdQuad s i)[p + 1]? := by
    intro p hp
    rw [← quad_hd hhd, ← frame_pixel s hi (by omega)]
    congr 1
    omega
  have hheader : (frame s)[4 + 4 * i]? = (hdQuad s i)[0]? := by
    rw [← quad_hd hhd]
    exact frame_pixel s (k := 0) hi (by decide)
  rw [hheader, hbyte _ hr, hbyte _ hg, hbyte _ hb, hdQuad, hdBytes_position _ _ hr, hdBytes_position _ _ hg,
    hdBytes_position _ _ hb, byteAtPosition_red, byteAtPosition_green, byteAtPosition_blue]
  exact ⟨rfl, rfl, rfl, rfl⟩

theorem hdHeaderAt_default {cfg : Config} (h : cfg.hdHeader = []) (p : BitVec 5) :
    hdHeaderAt cfg p = hdHeaderDefault p := by
  rw [hdHeaderAt, h, paramAt_nil]

/-- Settles O49: the five bits of the power level lie below the three ones of `0xE0`. -/
theorem defaultHeaderByte : Obligations.DefaultHeaderByte := by
  intro cfg p hdefault
  rw [hdHeaderAt_default hdefault, hdHeaderAt_default hdefault]
  refine ⟨?_, rfl⟩
  revert p
  decide

/-- A frame in which every quad is the same (R152). -/
theorem frame_of_quad_eq {s : State} {bytes : List Byte} (h : ∀ i, quad s i = bytes) :
    frame s = List.replicate 4 0x00#8 ++ (List.replicate s.n.toNat bytes).flatten ++
      List.replicate (endBytesAt s.cfg s.n) 0xFF#8 := by
  have hquads : (List.range s.n.toNat).flatMap (quad s) = (List.replicate s.n.toNat bytes).flatten := by
    rw [funext h, List.flatMap_def, List.map_const', List.length_range]
  rw [frame, hquads, endBytes]

/-- After reset every byte of the buffer is emitted as 0: it reads 0, and the brightness is pass-through (R31). -/
theorem scaledByte_resetWith (cfg : Config) (ok : Bool) (a : Nat) : scaledByte (State.resetWith cfg ok) a = 0#8 := rfl

/-- Settles O12: after a reset that allocates every quad is that of black, in either mode, and SHOW emits the frame of those;
after one that does not, SHOW emits nothing. -/
theorem firstShowEmitsAllOffFrame : Obligations.FirstShowEmitsAllOffFrame := by
  intro cfg
  refine ⟨⟨_, exec_showFrame_absent rfl, rfl⟩, fun hstandard => ⟨_, exec_showFrame_fair rfl rfl, ?_⟩,
    fun hhd hexpand hquant hheader => ⟨_, exec_showFrame_fair rfl rfl, ?_⟩⟩
  · refine frame_of_quad_eq fun i => (quad_standard hstandard i).trans ?_
    simp only [standardQuad, scaledByte_resetWith]
  · refine frame_of_quad_eq fun i => (quad_hd hhd i).trans ?_
    have hblack : scaledPixel (State.resetWith cfg true) i = { r := 0#8, g := 0#8, b := 0#8 } := by
      simp only [scaledPixel, scaledByte_resetWith]
    change hdBytes cfg (quantAt cfg _) = _
    rw [hblack, quantAt_black hexpand hquant, hdBytes, hdHeaderAt_default hheader]
    cases cfg.order <;> rfl

end Sys2Proof.Machine
end

section
/-! HSV (R181 to R186): the index of a hue, the hexcone's rows, and the operation. -/

namespace Sys2Proof.Machine

/-- Settles O53: a fact of linear arithmetic at every hue. -/
theorem hueIndexRange : Obligations.HueIndexRange := by
  have hindex : ∀ hue : Half, hueIndex hue = (hue.toNat * 1530 + 32768) / 65536 := fun _ => rfl
  refine ⟨fun hue => ⟨rfl, ?_⟩, fun hue h => ?_, rfl, rfl, fun hue h => ?_⟩
  all_goals
    rw [hindex]
    omega

/-- Every hexcone channel is a byte, one of them is 255 and one is 0 (R182). -/
theorem hexcone_channels {h r g b : Nat} (hrow : (r, g, b) = hexcone h) :
    r ≤ 255 ∧ g ≤ 255 ∧ b ≤ 255 ∧ (r = 255 ∨ g = 255 ∨ b = 255) ∧ (r = 0 ∨ g = 0 ∨ b = 0) := by
  unfold hexcone at hrow
  split_ifs at hrow <;> simp only [Prod.mk.injEq] at hrow <;> omega

/-- `t(c)` with the shift as a division (R183). -/
theorem satVal_eq (sat val : Byte) (c : Nat) :
    satVal sat val c = (c * (sat.toNat + 1) / 256 + (255 - sat.toNat)) * (val.toNat + 1) := by
  rw [satVal, Nat.shiftRight_eq_div_pow]

/-- Settles O55: the rows are the branches of `hexcone`, from the lowest index up; `t(c)` is `satVal_eq`, at most
`255 * 256` by `satVal_le`. -/
theorem hsvWidths : Obligations.HsvWidths := by
  refine ⟨fun h => ⟨fun _ => ?_, fun _ _ => ?_, fun _ _ => ?_, fun _ _ => ?_, fun _ _ => ?_, fun _ _ => ?_, fun _ => ?_⟩,
    fun h r g b => hexcone_channels, fun sat val c hc => ⟨satVal_eq sat val c, ?_⟩⟩
  · rw [hexcone, if_pos (by omega)]
  · rw [hexcone, if_neg (by omega), if_pos (by omega)]
  · rw [hexcone, if_neg (by omega), if_neg (by omega), if_pos (by omega)]
  · rw [hexcone, if_neg (by omega), if_neg (by omega), if_neg (by omega), if_pos (by omega)]
  · rw [hexcone, if_neg (by omega), if_neg (by omega), if_neg (by omega), if_neg (by omega), if_pos (by omega)]
  · rw [hexcone, if_neg (by omega), if_neg (by omega), if_neg (by omega), if_neg (by omega), if_neg (by omega),
      if_pos (by omega)]
  · subst h
    rfl
  · have hle := satVal_le sat val hc
    omega

theorem exec_hsv (hue : Half) (sat val : Byte) (s : State) :
    exec (.hsv hue sat val) s = .next { s with rsps := s.rsps ++ [rspPacked (packRgb (hsvColour hue sat val))] } := rfl

/-- The response of HSV as a number, from the row of the hue (R183, R184). -/
theorem toNat_hsvResponse {hue : Half} {r g b : Nat} (hrow : (r, g, b) = hexcone (hueIndex hue)) (sat val : Byte) :
    (rspPacked (packRgb (hsvColour hue sat val))).toNat =
      satVal sat val r / 256 * 2 ^ 16 + satVal sat val g / 256 * 2 ^ 8 + satVal sat val b / 256 := by
  obtain ⟨hr, hg, hb, -⟩ := hexcone_channels hrow
  rw [toNat_rspPacked, toNat_packRgb, hsvColour, ← hrow]
  simp only [toNat_hsvChannel sat val hr, toNat_hsvChannel sat val hg, toNat_hsvChannel sat val hb]

/-- Saturation 0 gives every channel the value (R183). -/
theorem satVal_of_sat_zero (val : Byte) {c : Nat} (hc : c ≤ 255) : satVal 0#8 val c / 256 = val.toNat := by
  rw [satVal_eq, BitVec.toNat_zero, show c * (0 + 1) / 256 = 0 by omega]
  omega

/-- Value 0 gives every channel 0 (R183). -/
theorem satVal_of_val_zero (sat : Byte) {c : Nat} (hc : c ≤ 255) : satVal sat 0#8 c / 256 = 0 := by
  have hle := satVal_le sat 0#8 hc
  rw [BitVec.toNat_zero] at hle
  omega

/-- Full saturation and value leave the hexcone channel as it is (R183). -/
theorem satVal_of_full (c : Nat) : satVal 255#8 255#8 c / 256 = c := by
  rw [satVal_eq, show (255#8 : Byte).toNat = 255 from rfl]
  omega

/-- Settles O54: the response is that of the hue's row, whose channels are bytes, so that the corner cases are those of
`satVal`; the anchors are evaluated. -/
theorem hsvResponds : Obligations.HsvResponds := by
  refine ⟨fun w h => ?_, fun hue sat val s => ⟨_, exec_hsv hue sat val s, fun r g b hrow => ?_⟩,
    fun s => ⟨rfl, rfl, rfl, rfl⟩⟩
  · rw [decode_of_rowMatch (.hsv 0#16 0#8 0#8) h, withOperandsOf, dHighByte_eq, dByte_eq, aField]
  · obtain ⟨hr, hg, hb, -⟩ := hexcone_channels hrow
    have hresponse := toNat_hsvResponse hrow sat val
    refine ⟨fun t ht => ?_, ?_, ?_, ?_⟩
    · rw [hresponse, satVal_eq, satVal_eq, satVal_eq, ← ht, ← ht, ← ht]
    · rintro rfl
      rw [hresponse, satVal_of_sat_zero val hr, satVal_of_sat_zero val hg, satVal_of_sat_zero val hb]
    · rintro rfl
      apply BitVec.eq_of_toNat_eq
      rw [hresponse, satVal_of_val_zero sat hr, satVal_of_val_zero sat hg, satVal_of_val_zero sat hb]
      rfl
    · rintro rfl rfl
      rw [hresponse, satVal_of_full, satVal_of_full, satVal_of_full]

end Sys2Proof.Machine
end

section
/-! The configuration (R7, R42): the functions and tables that can be given, and the channel orders that construct. -/

namespace Sys2Proof.Machine

/-- A function on a finite domain is some list of points, whatever the base (notes/assumptions/1.md). -/
theorem exists_points {α β : Type} [BEq α] [LawfulBEq α] [Finite α] (f : α → β) :
    ∃ points : List (α × β), ∀ base x, paramAt points base x = f x := by
  obtain ⟨l, -, hl⟩ := Finite.exists_univ_list α
  exact ⟨l.map fun a => (a, f a), fun base x => paramAt_map f base (hl x)⟩

/-- The same of a parameter whose base may itself depend on the points given, as `EXPAND`'s does (U7). -/
theorem exists_parameter {α β : Type} [BEq α] [LawfulBEq α] [Finite α] (f : α → β) (base : List (α × β) → α → β) :
    ∃ points, ∀ x, paramAt points (base points) x = f x := by
  obtain ⟨points, h⟩ := exists_points f
  exact ⟨points, h (base points)⟩

/-- There are finitely many colours: three bytes each. -/
theorem finite_rgb : Finite Rgb := by
  refine Finite.of_injective (fun c : Rgb => (c.r, c.g, c.b)) ?_
  rintro ⟨r, g, b⟩ ⟨r', g', b'⟩ h
  cases h
  rfl

/-- Settles O24: each parameter's domain is finite, so any function of it is some list of points; a table entry is then the
given one wherever the rules of R91 and R93 leave it so, and those rules are facts of every configuration. -/
theorem everyReplacementIsAConfiguration : Obligations.EveryReplacementIsAConfiguration := by
  intro cfg
  have hrgb := finite_rgb
  refine ⟨fun f => exists_parameter f _, fun f => exists_parameter f _, fun f => exists_parameter f _,
    fun f => exists_parameter f _, fun f => exists_parameter f _, fun f => ⟨?_, fun h0 => ?_⟩,
    fun hdefault f => ⟨?_, fun hf => ?_⟩, fun hreplaced f => ?_, fun x v hgiven h0 => gamma8At_of_lookup hgiven h0,
    fun x v hgiven hlegal => ?_⟩
  · rintro ⟨points, h⟩
    exact (h 0#8).symm
  · obtain ⟨points, h⟩ := exists_points f
    refine ⟨points, fun x => ?_⟩
    rw [gamma8At, h]
    split
    · next hx => rw [hx, h0]
    · rfl
  · rintro ⟨points, h⟩
    rw [← h, ← h]
    exact ⟨gamma16At_zero hdefault, gamma16At_last hdefault⟩
  · obtain ⟨points, h⟩ := exists_points f
    obtain ⟨h0, hlast⟩ := hf
    refine ⟨points, fun x => (gamma16At_eq_paramAt fun _ => ?_).trans (h _ x)⟩
    rw [h]
    exact ⟨fun hx => by rw [hx, h0], fun hx => by rw [hx]; exact hlast⟩
  · obtain ⟨points, h⟩ := exists_points f
    exact ⟨points, fun x => (gamma16At_replaced (cfg := { cfg with gamma16 := points }) hreplaced x).trans (h _ x)⟩
  · have hpoint := paramAt_of_lookup (base := Config.gamma16Open) hgiven
    rw [← hpoint] at hlegal ⊢
    exact gamma16At_eq_paramAt hlegal

/-- The offsets that name a channel order are that order's own (R42). -/
theorem ofOffsets_eq_some_iff (r g b : Nat) (o : Order) :
    Order.ofOffsets r g b = some o ↔ chanOffset o .red = r ∧ chanOffset o .green = g ∧ chanOffset o .blue = b := by
  constructor
  · intro h
    unfold Order.ofOffsets at h
    split at h <;> cases h <;> exact ⟨rfl, rfl, rfl⟩
  · rintro ⟨rfl, rfl, rfl⟩
    cases o <;> rfl

/-- Every permutation of {0,1,2} is the offsets of a channel order (R42). -/
theorem exists_order_of_perm {r g b : Nat} (hr : r < 3) (hg : g < 3) (hb : b < 3) (hrg : r ≠ g) (hrb : r ≠ b)
    (hgb : g ≠ b) : ∃ o, Order.ofOffsets r g b = some o := by
  have hsome : ∀ r g b : Fin 3, r ≠ g → r ≠ b → g ≠ b → (Order.ofOffsets r g b).isSome = true := by decide
  exact Option.isSome_iff_exists.1 (hsome ⟨r, hr⟩ ⟨g, hg⟩ ⟨b, hb⟩ (Fin.ne_of_val_ne hrg) (Fin.ne_of_val_ne hrb)
    (Fin.ne_of_val_ne hgb))

/-- Settles O13: a permutation is the offsets of a channel order, which `construct` takes; the offsets of a channel order are
a permutation, so any other triple names none. -/
theorem onlyPermutationsConstruct : Obligations.OnlyPermutationsConstruct := by
  intro r g b cfg ok
  refine ⟨fun hr hg hb hrg hrb hgb => ?_, fun hnot => ?_⟩
  · obtain ⟨o, ho⟩ := exists_order_of_perm hr hg hb hrg hrb hgb
    obtain ⟨hred, hgreen, hblue⟩ := (ofOffsets_eq_some_iff r g b o).1 ho
    exact ⟨o, _, by rw [construct, ho], rfl, hred, hgreen, hblue, rfl,
      fun hdefault => ⟨gamma16At_zero hdefault, gamma16At_last hdefault⟩⟩
  · cases ho : Order.ofOffsets r g b with
    | none => rw [construct, ho]
    | some o =>
      obtain ⟨rfl, rfl, rfl⟩ := (ofOffsets_eq_some_iff r g b o).1 ho
      exact absurd (chanOffset_perm o) hnot

end Sys2Proof.Machine
end
